-- ==== Sys2Proof/Word.lean ====
section
/-! DEFINITION. The words of the unit: the 32-bit word of the host port and of a command (R50, R80), the byte a
byte-addressed host would see (R54), and the number of an operand register (R83). Operand values themselves are
natural numbers (R8): their width `W` is a parameter of the machine, not of a type. -/

namespace Sys2Proof

/-- A 32-bit word: the only size the host port moves (R50) and the length of every command (R80). -/
abbrev Word := BitVec 32

/-- A byte of a word, as a byte-addressed host sees it (R54). -/
abbrev Byte := BitVec 8

/-- The number of an operand register, `x0` to `x15` (R20, R83). -/
abbrev RegNo := Fin 16

end Sys2Proof
end

