-- ==== Sys2Proof/Machine/Arith.lean ====
section
/-! DEFINITION. The arithmetic of the commands, exact over the integers (R101). Where a rule defines a result without
a method (R122), the reference loop of the spec computes it here and `Sys2Proof/Laws/Arith.lean` proves that it gives
the defining value (log entry 14). -/

namespace Sys2Proof.Machine

/-- The Euclidean loop of R130: while `b` is not 0, `(a, b) <- (b, a mod b)`. -/
def euclidLoop : Nat → Nat → Nat → Nat
  | 0, a, _ => a
  | fuel + 1, a, b => if b = 0 then a else euclidLoop fuel b (a % b)

/-- `gcd(a, b)` of R130. The second operand falls at every turn, so `b + 1` turns are enough. -/
def gcdOf (a b : Nat) : Nat := euclidLoop (b + 1) a b

/-- The right-to-left loop of R121, `v` the result so far and `p` the running square. -/
def powLoop : Nat → Nat → Nat → Nat → Nat → Nat
  | 0, v, _, _, _ => v
  | fuel + 1, v, p, e, m =>
    if e = 0 then v else powLoop fuel (if e % 2 = 1 then v * p % m else v) (p * p % m) (e / 2) m

/-- `b^e mod m` for `e > 0` and 1 for `e = 0`, also for `m = 1` (R120, R121; 90_conflicts.md C1). -/
def powModOf (b e m : Nat) : Nat := powLoop e 1 b e m

/-- The extended Euclidean loop of R133, with signed `t`; the answer is `(r0, t0)`. -/
def inverseLoop : Nat → Nat → Nat → Int → Int → Nat × Int
  | 0, r0, _, t0, _ => (r0, t0)
  | fuel + 1, r0, r1, t0, t1 =>
    if r1 = 0 then (r0, t0) else inverseLoop fuel r1 (r0 % r1) t1 (t0 - (r0 / r1 : Nat) * t1)

/-- The unique `t` in `[0, n)` with `(a*t) mod n = 1 mod n`, or none where `gcd(a, n)` is not 1 (R132, R133). -/
def inverseOf (a n : Nat) : Option Nat :=
  match inverseLoop (a + 1) n a 0 1 with
  | (g, t) => if g = 1 then some (t % (n : Int)).toNat else none

/-- `Rinv(m)` of R110 for the radix `R = 2^W`: the inverse of `R` modulo an odd `m`. -/
def radixInverse (w m : Nat) : Nat := (inverseOf (2 ^ w) m).getD 0

/-- The Montgomery product of R110 and R111. -/
def montProduct (w a b m : Nat) : Nat := a * b * radixInverse w m % m

/-- `R^2 mod m` (R112). -/
def radixSquare (w m : Nat) : Nat := 2 ^ (2 * w) % m

/-- The reference algorithm of R114, informative, for `a < m` and `b < m`: `m' = (-m^(-1)) mod R`, `q`, `u` and one
conditional subtraction. No command uses it; it is stated equal to `montProduct`. -/
def montReduce (w a b m : Nat) : Nat :=
  let m' := (2 ^ w - (inverseOf m (2 ^ w)).getD 0) % 2 ^ w
  let t := a * b
  let q := t % 2 ^ w * m' % 2 ^ w
  let u := (t + q * m) / 2 ^ w
  if m ≤ u then u - m else u

/-- The Carmichael formula of R140, before its width check. -/
def carmichaelOf (p q : Nat) : Nat := (p - 1) * (q - 1) / gcdOf (p - 1) (q - 1)

/-- Halve an even `r`, counting in `s`. -/
def halveLoop : Nat → Nat → Nat → Nat × Nat
  | 0, s, r => (s, r)
  | fuel + 1, s, r => if r % 2 = 1 then (s, r) else halveLoop fuel (s + 1) (r / 2)

/-- `Decomp(n) = (s, r)` with `n - 1 = 2^s * r` and `r` odd (R150). -/
def decomp (n : Nat) : Nat × Nat := halveLoop n 0 (n - 1)

/-- The squaring loop of R151: up to `k` squarings of `y` modulo `n`, seeking `n - 1`. -/
def squareLoop : Nat → Nat → Nat → Nat
  | 0, y, _ => y
  | k + 1, y, n => if y = n - 1 then y else squareLoop k (y * y % n) n

/-- `RoundPasses(a, n)` of R151. -/
def roundPasses (a n : Nat) : Bool :=
  match decomp n with
  | (s, r) =>
    let y := powModOf a r n
    if y ≠ 1 ∧ y ≠ n - 1 then squareLoop (s - 1) y n = n - 1 else true

/-- What MRTEST decides (R157). -/
inductive MrOutcome where
  | composite
  | prime
  | witnessRange
  deriving DecidableEq, Repr

/-- The rounds `i` to `iters` of R157's `MRTestOutcome`, `left` of them still to run and `made` requests made so far;
none where the list of draws ends before the test does. -/
def mrRounds (n : Nat) : Nat → Nat → List Nat → Option (MrOutcome × Nat)
  | 0, made, _ => some (.prime, made)
  | _ + 1, _, [] => none
  | left + 1, made, v :: draws =>
    if n - 3 ≤ v then some (.witnessRange, made + 1)
    else if roundPasses (v + 2) n then mrRounds n left (made + 1) draws
    else some (.composite, made + 1)

/-- `MRTestOutcome(n, iters, v)` of R157 on a finite list of draws: the outcome and the number of RNG transactions. -/
def mrTestOutcome (n iters : Nat) (draws : List Nat) : Option (MrOutcome × Nat) :=
  if n < 2 then some (.composite, 0)
  else if n < 4 then some (.prime, 0)
  else mrRounds n iters 0 draws

end Sys2Proof.Machine
end

