-- ==== Sys2Proof/Syntax.lean ====
section
/-! DEFINITION. The command set (R84, R88): one constructor for each row of the opcode map. Register fields are
register numbers; the fields a format does not use (R82) do not appear. SQRMOD is another spelling of `mulmod` (R90). -/

namespace Sys2Proof

/-- The nine commands, "the whole of it" (R2, R84). Operand order is the assembler's: destination first, modulus
last (R88). -/
inductive Instr where
  /-- `MULMOD xd, xa, xb, xm` (R100). -/
  | mulmod (rd rs1 rs2 rm : RegNo)
  /-- `MONTMUL xd, xa, xb, xm` (R111). -/
  | montmul (rd rs1 rs2 rm : RegNo)
  /-- `MONTR2 xd, xm` (R112). -/
  | montr2 (rd rm : RegNo)
  /-- `POWMOD xd, xa, xe, xm` (R120). -/
  | powmod (rd rs1 rs2 rm : RegNo)
  /-- `GCD xd, xa, xb` (R130). -/
  | gcd (rd rs1 rs2 : RegNo)
  /-- `MODINV xd, xa, xm` (R132). -/
  | modinv (rd rs1 rm : RegNo)
  /-- `LAMBDA xd, xp, xq` (R140). -/
  | lambda (rd rs1 rs2 : RegNo)
  /-- `MRROUND xa, xm` (R152). -/
  | mrround (rs1 rm : RegNo)
  /-- `MRTEST xm, #iters` (R155); `iters` is a number, 0 to 255 where the command is well-formed (R83). -/
  | mrtest (rm : RegNo) (iters : Nat)
  deriving DecidableEq, Repr

end Sys2Proof
end

