-- ==== Sys2Proof/WellFormed.lean ====
section
/-! DEFINITION. Which commands have an encoding. Register fields are in range by their type, and all sixteen values
of a used field are legal, also equal ones (R82); what remains to check is the round count of MRTEST (R83, R155:
"`iters` above 255 cannot be encoded"). -/

namespace Sys2Proof

/-- The command can be encoded: every field fits the bits R81 gives it. -/
def Instr.wellFormed (i : Instr) : Bool :=
  match i with
  | .mulmod _ _ _ _ => true
  | .montmul _ _ _ _ => true
  | .montr2 _ _ => true
  | .powmod _ _ _ _ => true
  | .gcd _ _ _ => true
  | .modinv _ _ _ => true
  | .lambda _ _ _ => true
  | .mrround _ _ => true
  | .mrtest _ iters => iters < 256

end Sys2Proof
end

