-- ==== Sys2Proof/Decode.lean ====
section
/-! DEFINITION. Command words: the decoder, total on all 2^32 words and rejecting by name (R85, R86), and the encoder
of R81's formula. -/

namespace Sys2Proof

/-- Why a word is illegal (R86). -/
inductive Illegal where
  /-- The opcode byte is 0x00 or 0x0A .. 0xFF. -/
  | reservedOpcode
  /-- A field that the word's format does not use is not zero. -/
  | unusedFieldNotZero
  deriving DecidableEq, Repr

/-- The slice `v[hi:lo]` of R8: `(v div 2^lo) mod 2^(hi-lo+1)`. -/
def slice (v hi lo : Nat) : Nat := v / 2 ^ lo % 2 ^ (hi + 1 - lo)

/-- The fields of a command word, at the same place in every format (R81). -/
def opcodeOf (w : Word) : Nat := slice w.toNat 31 24
@[inherit_doc opcodeOf] def rdOf (w : Word) : Nat := slice w.toNat 23 20
@[inherit_doc opcodeOf] def rs1Of (w : Word) : Nat := slice w.toNat 19 16
@[inherit_doc opcodeOf] def rs2Of (w : Word) : Nat := slice w.toNat 15 12
@[inherit_doc opcodeOf] def rmOf (w : Word) : Nat := slice w.toNat 11 8
@[inherit_doc opcodeOf] def imm8Of (w : Word) : Nat := slice w.toNat 7 0

/-- The register a four-bit field names: the register number itself (R83). -/
def regOf (f : Nat) : RegNo := Fin.ofNat 16 f

/-- The command if the fields its format does not use are all zero, else an illegal word (R82, R86). -/
def whenZero (unused : List Nat) (i : Instr) : Except Illegal Instr :=
  if unused.all (· = 0) then .ok i else .error .unusedFieldNotZero

/-- The decode function of R85. -/
def decode (w : Word) : Except Illegal Instr :=
  let rd := regOf (rdOf w)
  let rs1 := regOf (rs1Of w)
  let rs2 := regOf (rs2Of w)
  let rm := regOf (rmOf w)
  match opcodeOf w with
  | 0x01 => whenZero [imm8Of w] (.mulmod rd rs1 rs2 rm)
  | 0x02 => whenZero [imm8Of w] (.montmul rd rs1 rs2 rm)
  | 0x03 => whenZero [rs1Of w, rs2Of w, imm8Of w] (.montr2 rd rm)
  | 0x04 => whenZero [imm8Of w] (.powmod rd rs1 rs2 rm)
  | 0x05 => whenZero [rmOf w, imm8Of w] (.gcd rd rs1 rs2)
  | 0x06 => whenZero [rs2Of w, imm8Of w] (.modinv rd rs1 rm)
  | 0x07 => whenZero [rmOf w, imm8Of w] (.lambda rd rs1 rs2)
  | 0x08 => whenZero [rdOf w, rs2Of w, imm8Of w] (.mrround rs1 rm)
  | 0x09 => whenZero [rdOf w, rs1Of w, rs2Of w] (.mrtest rm (imm8Of w))
  | _ => .error .reservedOpcode

/-- R81's formula, as a number: `opcode*2^24 + rd*2^20 + rs1*2^16 + rs2*2^12 + rm*2^8 + imm8`. -/
def wordValue (opcode rd rs1 rs2 rm imm8 : Nat) : Nat :=
  opcode * 2 ^ 24 + rd * 2 ^ 20 + rs1 * 2 ^ 16 + rs2 * 2 ^ 12 + rm * 2 ^ 8 + imm8

/-- The word of a command: R81's formula with the opcode of R84 and zero in the fields its format does not use. -/
def encode (i : Instr) : Word :=
  BitVec.ofNat 32 <|
    match i with
    | .mulmod rd rs1 rs2 rm => wordValue 0x01 rd rs1 rs2 rm 0
    | .montmul rd rs1 rs2 rm => wordValue 0x02 rd rs1 rs2 rm 0
    | .montr2 rd rm => wordValue 0x03 rd 0 0 rm 0
    | .powmod rd rs1 rs2 rm => wordValue 0x04 rd rs1 rs2 rm 0
    | .gcd rd rs1 rs2 => wordValue 0x05 rd rs1 rs2 0 0
    | .modinv rd rs1 rm => wordValue 0x06 rd rs1 0 rm 0
    | .lambda rd rs1 rs2 => wordValue 0x07 rd rs1 rs2 0 0
    | .mrround rs1 rm => wordValue 0x08 0 rs1 0 rm 0
    | .mrtest rm iters => wordValue 0x09 0 0 0 rm iters

/-- The word whose low `nbits` bits are those of `w`, every bit above them zero: a command is one 32-bit datum, so no
byte order comes in (R80). -/
def tableWord (nbits w : Nat) : Word := BitVec.ofNat 32 (w % 2 ^ nbits)

/-- The command the decoder reads from an opcode-table word; none where it is illegal. -/
def decodeTableWord (nbits w : Nat) : Option Instr :=
  match decode (tableWord nbits w) with
  | .ok i => some i
  | .error _ => none

end Sys2Proof
end

