-- ==== Sys2Proof/Config.lean ====
section
/-! DEFINITION. What an implementation fixes (R7, R31, R52) and the values the spec leaves free (R37). -/

namespace Sys2Proof.Config

/-- DESIGN CHOICE (log entry 1; unsafe for a claim about the reset width only): the width `State.reset` starts with.
R7 leaves `NWORDS` open between 1 and 65535; the machine holds it as a field of State, so that every statement about a
state is about every width. The value 1 (W = 32) is the one the spec's vectors use "unless a vector says otherwise". -/
def resetNwords : Nat := 1

/-- The largest `NWORDS` (R7). -/
def maxNwords : Nat := 65535

/-- `PARAM.VERSION` (R2, R31). -/
def version : Nat := 1

/-- `NREG`, the number of operand registers (R7, R31). -/
def nreg : Nat := 16

/-- Word index of the first word of the operand window: byte address 0x1000 (R7, R52). -/
def windowBase : Nat := 0x400

/-- FREE VALUE (log entry 3): what hard reset number `k` leaves in operand register `r` (R37: "unspecified (any
value)"; U1, U10). It has no body: nothing can be proved of it. -/
opaque unspecifiedOperand (k r : Nat) : Nat

end Sys2Proof.Config
end

