-- ==== Sys2Proof/Machine/State.lean ====
section
/-! DEFINITION. The state of the unit (10_state.md): sixteen operand registers, STATUS, LASTCMD, the in-flight
record, what the two ports carry, and the list of events that drive the machine. CTRL holds no state (R32) and PARAM
is computed from `nwords` (R31). There is no program counter (R23) and no memory (R39). -/

namespace Sys2Proof.Machine

/-- The fields of STATUS (R24). Reserved bits have no storage: they read as zero and ignore writes. -/
structure Status where
  /-- A command is in flight (R25). -/
  busy : Bool
  /-- The last taken command has ended, with or without error (R26). -/
  done : Bool
  /-- The last ended command ended with a command error; sticky (R27). -/
  err : Bool
  /-- The verdict of the last MRROUND or MRTEST that completed without error (R28). -/
  prime : Bool
  /-- The host made an access the unit ignored; sticky (R29). -/
  hviol : Bool
  /-- The code of the error that set ERR (R27, R171). -/
  ecode : BitVec 8
  deriving DecidableEq, Repr

/-- STATUS after either reset (R37). -/
def Status.clear : Status :=
  { busy := false, done := false, err := false, prime := false, hviol := false, ecode := 0x00 }

/-- The in-flight record of R35. -/
structure Inflight where
  /-- The command word. -/
  word : Word
  /-- Rounds of an MRTEST passed so far; 0 for every other command. -/
  round : Nat
  /-- The bound of the RNG request issued and not yet answered. -/
  pending : Option Nat
  deriving DecidableEq, Repr

/-- What can happen next at the unit. One event is one step; the order of events is arbitrary (R58). -/
inductive Event where
  /-- The host reads the word at a word index, that is byte address divided by 4 (R50). -/
  | hostRead (index : Nat)
  /-- The host writes a word at a word index (R50). -/
  | hostWrite (index : Nat) (data : Word)
  /-- The engine takes its own enabled step (R36, R156), if it has one. -/
  | engine
  /-- The RNG collaborator returns a value for the outstanding request (R70). -/
  | rngAnswer (value : Nat)
  /-- The platform resets the whole unit (R190). -/
  | hardReset
  deriving DecidableEq, Repr

/-- The state of the unit and of its ports. -/
structure State where
  /-- `NWORDS`, fixed for a unit (R7) and readable in PARAM (R31); no step changes it. -/
  nwords : Nat
  /-- The operand registers `x0` .. `x15`, each a number below `2^W` (R20). -/
  regs : Vector Nat 16
  /-- STATUS (R24). -/
  status : Status
  /-- LASTCMD, what a read of CMD returns (R30). -/
  lastCmd : Word
  /-- The in-flight record (R35). -/
  inflight : Option Inflight
  /-- Host port: the word the last MemRead returned (R50). -/
  readData : Word
  /-- RNG port: the value the collaborator returns in this step (R70); none between steps. -/
  rngReply : Option Nat
  /-- The model's own: the events to come, oldest first (log entry 4). -/
  script : List Event
  /-- The model's own: how many hard resets have drawn unspecified operand values (log entry 3). -/
  freeCount : Nat
  deriving DecidableEq, Repr

/-- Why the machine stops. A command error is no stop: it is a next state (R175). -/
inductive Fault where
  /-- Raised by the engine's turn when the in-flight word does not decode. No run reaches such a state, since only a
  legal word is put in flight (R30); safe (log entry 12). -/
  | illegalInFlight
  deriving DecidableEq, Repr

/-- Why an instruction has no meaning. -/
inductive Refusal where
  /-- Raised by `exec` for an instruction that is not modelled yet; safe. No arm raises it. -/
  | notModelled (mnemonic : String)
  deriving DecidableEq, Repr

/-- The unit right after hard reset, for the width `32 * nwords` (R37, R190). The control state is R37's; the operand
registers are unspecified there and zero here (DESIGN CHOICE, unsafe, log entry 2); `readData`, `rngReply`, `script` and
`freeCount` are DESIGN CHOICE (log entries 3, 4, 8, 9). -/
def State.resetFor (nwords : Nat) : State :=
  { nwords := nwords
    regs := Vector.replicate 16 0
    status := Status.clear
    lastCmd := 0x00000000
    inflight := none
    readData := 0x00000000
    rngReply := none
    script := []
    freeCount := 0 }

/-- The unit right after hard reset (R37, R190), at the width of `Config.resetNwords` (log entry 1). -/
def State.reset : State := State.resetFor Config.resetNwords

end Sys2Proof.Machine
end

