-- ==== Sys2Proof/Machine/Flags.lean ====
section
/-! DEFINITION. STATUS as a word (R24), the write-1-to-clear of STATUS (R33), and the codes of the command errors
(R171). -/

namespace Sys2Proof.Machine

/-- The command errors of R171. -/
inductive CmdError where
  | illegalCommand
  | modulusZero
  | modulusEven
  | noInverse
  | operandRange
  | resultOverflow
  | witnessRange
  deriving DecidableEq, Repr

/-- The error code of R171. -/
def CmdError.code (e : CmdError) : BitVec 8 :=
  match e with
  | .illegalCommand => 0x01
  | .modulusZero => 0x02
  | .modulusEven => 0x03
  | .noInverse => 0x04
  | .operandRange => 0x05
  | .resultOverflow => 0x06
  | .witnessRange => 0x07

/-- A flag as the number of its bit. -/
def flagBit (b : Bool) : Nat := if b then 1 else 0

/-- The value of STATUS: BUSY at bit 0, DONE 1, ERR 2, PRIME 3, HVIOL 4, ECODE at 15:8, every other bit zero (R24). -/
def Status.toWord (f : Status) : Word :=
  BitVec.ofNat 32
    (flagBit f.busy + 2 * flagBit f.done + 4 * flagBit f.err + 8 * flagBit f.prime + 16 * flagBit f.hviol
      + 256 * f.ecode.toNat)

/-- A host write of `d` to STATUS: bit 2 clears ERR and ECODE, bit 4 clears HVIOL, every other bit is ignored (R33). -/
def Status.writeClear (f : Status) (d : Word) : Status :=
  { f with
    err := if d.getLsbD 2 then false else f.err
    ecode := if d.getLsbD 2 then 0x00 else f.ecode
    hviol := if d.getLsbD 4 then false else f.hviol }

/-- The flags when a legal command is taken: BUSY set, DONE cleared (R25, R26, R30). -/
def Status.taken (f : Status) : Status := { f with busy := true, done := false }

/-- The flags when a command ends: DONE set, BUSY cleared (R36). -/
def Status.ended (f : Status) : Status := { f with busy := false, done := true }

/-- The flags when a command ends with error `e`: those of R36, ERR set and ECODE recorded; PRIME and HVIOL keep their
values (R175; for IllegalCommand, whose BUSY was 0 and stays 0, R172). -/
def Status.failed (f : Status) (e : CmdError) : Status := { f.ended with err := true, ecode := e.code }

/-- The flags after an access the unit ignored: HVIOL set, nothing else (R29). -/
def Status.violated (f : Status) : Status := { f with hviol := true }

end Sys2Proof.Machine
end

