-- ==== Sys2Proof/Machine/Operands.lean ====
section
/-! DEFINITION. The operand registers: as whole numbers for the commands (R9, R20), as 32-bit words for the operand
window (R21, R54, R56), and as bytes for a byte-addressed host (R54). -/

namespace Sys2Proof.Machine

/-- The operand width `W = 32 * NWORDS` (R7). -/
def State.width (s : State) : Nat := 32 * s.nwords

/-- `x[r]`, the value of operand register `r` (R9). -/
def State.x (s : State) (r : RegNo) : Nat := s.regs.get r

/-- `x[r] <- v` (R9). -/
def State.setX (s : State) (r : RegNo) (v : Nat) : State := { s with regs := s.regs.set r v }

/-- Word `j` of a value: bits `[32j+31 : 32j]` (R54). -/
def wordOf (v j : Nat) : Word := BitVec.ofNat 32 (v / 2 ^ (32 * j))

/-- The value with bits `[32j+31 : 32j]` replaced by `d` and every other bit as it was (R21, R56). -/
def replaceWord (v j : Nat) (d : Word) : Nat :=
  v / 2 ^ (32 * j + 32) * 2 ^ (32 * j + 32) + d.toNat * 2 ^ (32 * j) + v % 2 ^ (32 * j)

/-- Byte `k` of a word: bits `[8k+7 : 8k]`, little-endian (R54). -/
def byteOf (w : Word) (k : Nat) : Byte := BitVec.ofNat 8 (w.toNat / 2 ^ (8 * k))

/-- What stands at a word index of the host register space (R52). -/
inductive Location where
  | cmd
  | status
  | ctrl
  | param
  | operand (i : RegNo) (j : Nat)
  | reserved
  deriving DecidableEq, Repr

/-- The address map of R52, by word index (byte address divided by 4), for a unit of `nwords` words per operand. -/
def locate (nwords index : Nat) : Location :=
  if index = 0 then .cmd
  else if index = 1 then .status
  else if index = 2 then .ctrl
  else if index = 3 then .param
  else if index < Config.windowBase then .reserved
  else if index - Config.windowBase < Config.nreg * nwords then
    .operand (Fin.ofNat 16 ((index - Config.windowBase) / nwords)) ((index - Config.windowBase) % nwords)
  else .reserved

/-- The word index of word `j` of `x[i]`: byte address `0x1000 + 4*(i*NWORDS + j)` divided by 4 (R52). -/
def windowIndex (nwords : Nat) (i : RegNo) (j : Nat) : Nat := Config.windowBase + (i.val * nwords + j)

/-- The constant of PARAM: NWORDS at 15:0, NREG at 23:16, VERSION at 31:24 (R31). -/
def paramWord (nwords : Nat) : Word :=
  BitVec.ofNat 32 (Config.version * 2 ^ 24 + Config.nreg * 2 ^ 16 + nwords % 2 ^ 16)

end Sys2Proof.Machine
end

