-- ==== Sys2Proof/Machine/Ops.lean ====
section
/-! DEFINITION. The shared operations: how a command ends (R36), taking a command error, the unit's one exception
(R175), and the return from it (R176), the two resets (R190, R191), and the host port (R30 to R33, R50 to R57). -/

namespace Sys2Proof.Machine

/-! ### How a command ends -/

/-- The common completion: `DONE <- 1; BUSY <- 0; inflight <- none` (R36). -/
def State.finish (s : State) : State := { s with status := s.status.ended, inflight := none }

/-- A command that writes its result: `x[rd] <- v`, then the common completion (R36). -/
def State.finishWith (s : State) (rd : RegNo) (v : Nat) : State := (s.setX rd v).finish

/-- A command that writes its verdict: `PRIME <- b`, then the common completion (R28, R36). -/
def State.finishVerdict (s : State) (b : Bool) : State :=
  State.finish { s with status := { s.status with prime := b } }

/-- TAKING THE EXCEPTION: `raise E` of R175. Operand registers, PRIME, HVIOL and LASTCMD keep their values; nothing is
saved but ECODE, and control goes nowhere (R170). -/
def State.raise (s : State) (e : CmdError) : State := { s with status := s.status.failed e, inflight := none }

/-- THE RETURN FROM IT is the host's write to STATUS, of which bit 2 clears ERR and ECODE and bit 4 clears HVIOL; it
restores nothing else (R33, R176). -/
def State.writeStatus (s : State) (d : Word) : State := { s with status := s.status.writeClear d }

/-! ### Resets -/

/-- The control state after either reset (R37): STATUS and LASTCMD zero, nothing in flight. A request that was
outstanding is withdrawn (R192). -/
def State.clearControl (s : State) : State :=
  { s with status := Status.clear, lastCmd := 0x00000000, inflight := none, rngReply := none }

/-- Soft reset: the control state is cleared and the operand registers keep their values (R191). -/
def State.softReset (s : State) : State := s.clearControl

/-- Hard reset: the control state is cleared and every operand register holds an unspecified `W`-bit value, a free
value of Config (R37, R190; log entry 3). -/
def State.hardReset (s : State) : State :=
  { s.clearControl with
    regs := Vector.ofFn fun r : Fin 16 => Config.unspecifiedOperand s.freeCount r.val % 2 ^ s.width
    freeCount := s.freeCount + 1 }

/-! ### The host port -/

/-- An access the unit ignores: HVIOL is set (R29). -/
def State.violate (s : State) : State := { s with status := s.status.violated }

/-- A legal command word is taken and is now in flight (R30, third case). -/
def State.take (s : State) (w : Word) : State :=
  { s with
    lastCmd := w
    status := s.status.taken
    inflight := some { word := w, round := 0, pending := none } }

/-- An illegal command word is taken and ends at once with IllegalCommand; BUSY stays 0 (R30, second case; R172). -/
def State.takeIllegal (s : State) (w : Word) : State :=
  { s with lastCmd := w, status := { s.status with done := true, err := true, ecode := CmdError.illegalCommand.code } }

/-- A host write to CMD: the three cases of R30 in order. -/
def State.writeCmd (s : State) (w : Word) : State :=
  if s.status.busy || s.status.err then s.violate
  else
    match decode w with
    | .error _ => s.takeIllegal w
    | .ok _ => s.take w

/-- A host write to CTRL: bit 0 is the soft reset, every other bit is ignored (R32). -/
def State.writeCtrl (s : State) (d : Word) : State := if d.getLsbD 0 then s.softReset else s

/-- A host write to word `j` of `x[i]`: dropped with HVIOL while BUSY = 1, else the word is replaced (R56). -/
def State.writeOperand (s : State) (i : RegNo) (j : Nat) (d : Word) : State :=
  if s.status.busy then s.violate else s.setX i (replaceWord (s.x i) j d)

/-- `MemWrite` at a word index (R50, R52, R53). -/
def State.hostWrite (s : State) (index : Nat) (d : Word) : State :=
  match locate s.nwords index with
  | .cmd => s.writeCmd d
  | .status => s.writeStatus d
  | .ctrl => s.writeCtrl d
  | .param => s
  | .operand i j => s.writeOperand i j d
  | .reserved => s

/-- The content of a word index of the host register space, without any side effect (R24, R30, R31, R32, R53, R56). -/
def State.peekWord (s : State) (index : Nat) : Word :=
  match locate s.nwords index with
  | .cmd => s.lastCmd
  | .status => s.status.toWord
  | .ctrl => 0x00000000
  | .param => paramWord s.nwords
  | .operand i j => wordOf (s.x i) j
  | .reserved => 0x00000000

/-- The byte at a byte address of the host register space, as a byte-addressed host sees it (R54). The port has no
byte access (R50): this is how statements look at the space, not something the host can do. -/
def State.peekByte (s : State) (addr : Nat) : Byte := byteOf (s.peekWord (addr / 4)) (addr % 4)

/-- The index lies in the operand window (R52). -/
def inWindow (nwords index : Nat) : Bool :=
  match locate nwords index with
  | .operand _ _ => true
  | .cmd | .status | .ctrl | .param | .reserved => false

/-- `MemRead` at a word index: the word is returned on the port; in the closed window zero is returned and HVIOL set
(R29, R56). No other read has a side effect (R57). -/
def State.hostRead (s : State) (index : Nat) : State :=
  if inWindow s.nwords index && s.status.busy then { s.violate with readData := 0x00000000 }
  else { s with readData := s.peekWord index }

end Sys2Proof.Machine
end

