-- ==== Sys2Proof/Machine/Carmichael.lean ====
section
/-! DEFINITION. LAMBDA (44_carmichael.md). -/

namespace Sys2Proof.Machine

/-- LAMBDA: `x[rd] <- (p-1)(q-1) / gcd(p-1, q-1)` with `p = x[rs1]`, `q = x[rs2]`; OperandRange where an operand is
below 2, tested first, then ResultOverflow where the value does not fit in `W` bits (R140, R174). -/
def execLambda (rd rs1 rs2 : RegNo) (s : State) : Host.Outcome State Fault Refusal :=
  let p := s.x rs1
  let q := s.x rs2
  if p < 2 ∨ q < 2 then .next (s.raise .operandRange)
  else if 2 ^ s.width ≤ carmichaelOf p q then .next (s.raise .resultOverflow)
  else .next (s.finishWith rd (carmichaelOf p q))

end Sys2Proof.Machine
end

