-- ==== Sys2Proof/Machine/GcdInverse.lean ====
section
/-! DEFINITION. GCD and MODINV (43_gcd_inverse.md). -/

namespace Sys2Proof.Machine

/-- GCD: `x[rd] <- gcd(x[rs1], x[rs2])`; it raises no error (R130). -/
def execGcd (rd rs1 rs2 : RegNo) (s : State) : Host.Outcome State Fault Refusal :=
  .next (s.finishWith rd (gcdOf (s.x rs1) (s.x rs2)))

/-- MODINV: `x[rd] <-` the inverse of `x[rs1]` modulo `n = x[rm]`; ModulusZero where `n = 0`, tested first, then
NoInverse where `gcd(x[rs1], n)` is not 1, the destination unchanged (R132, R174). -/
def execModinv (rd rs1 rm : RegNo) (s : State) : Host.Outcome State Fault Refusal :=
  let n := s.x rm
  if n = 0 then .next (s.raise .modulusZero)
  else
    match inverseOf (s.x rs1) n with
    | none => .next (s.raise .noInverse)
    | some t => .next (s.finishWith rd t)

end Sys2Proof.Machine
end

