-- ==== Sys2Proof/Machine/MillerRabin.lean ====
section
/-! DEFINITION. MRROUND and MRTEST (45_miller_rabin.md). -/

namespace Sys2Proof.Machine

/-- MRROUND: `PRIME <- RoundPasses(a, n)` with `a = x[rs1]`, `n = x[rm]`; WitnessRange, PRIME unchanged, where
`n < 4` or `a` is outside `[2, n - 2]` (R151, R152). -/
def execMrround (rs1 rm : RegNo) (s : State) : Host.Outcome State Fault Refusal :=
  let a := s.x rs1
  let n := s.x rm
  if n < 4 ∨ a < 2 ∨ n - 2 < a then .next (s.raise .witnessRange)
  else .next (s.finishVerdict (roundPasses a n))

/-- The rounds passed so far (R35); 0 where nothing is in flight. -/
def State.round (s : State) : Nat := (s.inflight.map Inflight.round).getD 0

/-- The bound of the outstanding RNG request (R35). -/
def State.pending (s : State) : Option Nat := s.inflight.bind Inflight.pending

/-- `issue` of R156: the request for a value below `bound` is presented on the RNG port. -/
def State.issueRequest (s : State) (bound : Nat) : State :=
  { s with inflight := s.inflight.map fun f => { f with pending := some bound } }

/-- The port's value is consumed: `pending <- none` (R156). -/
def State.consumeReply (s : State) : State :=
  { s with rngReply := none, inflight := s.inflight.map fun f => { f with pending := none } }

/-- `round <- round + 1` (R156). -/
def State.nextRound (s : State) : State :=
  { s with inflight := s.inflight.map fun f => { f with round := f.round + 1 } }

/-- `answer(v)` of R156 for the candidate `n`: an answer outside its range is the error WitnessRange (R72), else the
witness is `v + 2` (R158); a passed round is counted and a failed one ends the test as composite. -/
def State.answerRound (s : State) (n v : Nat) : State :=
  if n - 3 ≤ v then s.consumeReply.raise .witnessRange
  else if roundPasses (v + 2) n then s.consumeReply.nextRound
  else s.consumeReply.finishVerdict false

/-- MRTEST, one engine step (R155, R156). With a request outstanding: `answer(v)` where the collaborator returns `v`,
and no step while it does not (R73). With none: complete-early, complete-prime or issue, by their guards; where no
guard holds, which no run reaches, the engine has no step (log entry 17). -/
def execMrtest (rm : RegNo) (iters : Nat) (s : State) : Host.Outcome State Fault Refusal :=
  let n := s.x rm
  match s.pending, s.rngReply with
  | some _, some v => .next (s.answerRound n v)
  | some _, none => .next s
  | none, _ =>
    if n < 4 then
      if s.round = 0 then .next (s.finishVerdict (n = 2 ∨ n = 3)) else .next s
    else if s.round = iters then .next (s.finishVerdict true)
    else if s.round < iters then .next (s.issueRequest (n - 3))
    else .next s

end Sys2Proof.Machine
end

