-- ==== Sys2Proof/Machine/Modmul.lean ====
section
/-! DEFINITION. MULMOD (40_modmul.md). -/

namespace Sys2Proof.Machine

/-- MULMOD: `x[rd] <- (x[rs1] * x[rs2]) mod x[rm]`, the product exact; ModulusZero where `x[rm] = 0` (R100, R101). -/
def execMulmod (rd rs1 rs2 rm : RegNo) (s : State) : Host.Outcome State Fault Refusal :=
  let m := s.x rm
  if m = 0 then .next (s.raise .modulusZero)
  else .next (s.finishWith rd (s.x rs1 * s.x rs2 % m))

end Sys2Proof.Machine
end

