-- ==== Sys2Proof/Machine/Montgomery.lean ====
section
/-! DEFINITION. MONTMUL and MONTR2 (41_montgomery.md), for the radix `R = 2^W` (R110). -/

namespace Sys2Proof.Machine

/-- MONTMUL: `x[rd] <- (x[rs1] * x[rs2] * Rinv(m)) mod m` with `m = x[rm]`; ModulusZero where `m = 0`, tested first,
then ModulusEven where `m` is even (R111, R174). -/
def execMontmul (rd rs1 rs2 rm : RegNo) (s : State) : Host.Outcome State Fault Refusal :=
  let m := s.x rm
  if m = 0 then .next (s.raise .modulusZero)
  else if m % 2 = 0 then .next (s.raise .modulusEven)
  else .next (s.finishWith rd (montProduct s.width (s.x rs1) (s.x rs2) m))

/-- MONTR2: `x[rd] <- 2^(2*W) mod m` with `m = x[rm]`; the errors of MONTMUL (R112). -/
def execMontr2 (rd rm : RegNo) (s : State) : Host.Outcome State Fault Refusal :=
  let m := s.x rm
  if m = 0 then .next (s.raise .modulusZero)
  else if m % 2 = 0 then .next (s.raise .modulusEven)
  else .next (s.finishWith rd (radixSquare s.width m))

end Sys2Proof.Machine
end

