-- ==== Sys2Proof/Machine/Powmod.lean ====
section
/-! DEFINITION. POWMOD (42_powmod.md). -/

namespace Sys2Proof.Machine

/-- POWMOD: `x[rd] <- x[rs1]^x[rs2] mod x[rm]`, and 1 for exponent 0 at every modulus, also modulus 1; ModulusZero
where `x[rm] = 0`, tested first (R120, R174). -/
def execPowmod (rd rs1 rs2 rm : RegNo) (s : State) : Host.Outcome State Fault Refusal :=
  let m := s.x rm
  if m = 0 then .next (s.raise .modulusZero)
  else .next (s.finishWith rd (powModOf (s.x rs1) (s.x rs2) m))

end Sys2Proof.Machine
end

