-- ==== Sys2Proof/Machine/Dispatch.lean ====
section
/-! DEFINITION. `exec i s`: the engine's step of command `i` in state `s` (R36), one arm for each command of R84. -/

namespace Sys2Proof.Machine

def exec (i : Instr) (s : State) : Host.Outcome State Fault Refusal :=
  match i with
  | .mulmod rd rs1 rs2 rm => Sys2Proof.Machine.execMulmod rd rs1 rs2 rm s
  | .montmul rd rs1 rs2 rm => Sys2Proof.Machine.execMontmul rd rs1 rs2 rm s
  | .montr2 rd rm => Sys2Proof.Machine.execMontr2 rd rm s
  | .powmod rd rs1 rs2 rm => Sys2Proof.Machine.execPowmod rd rs1 rs2 rm s
  | .gcd rd rs1 rs2 => Sys2Proof.Machine.execGcd rd rs1 rs2 s
  | .modinv rd rs1 rm => Sys2Proof.Machine.execModinv rd rs1 rm s
  | .lambda rd rs1 rs2 => Sys2Proof.Machine.execLambda rd rs1 rs2 s
  | .mrround rs1 rm => Sys2Proof.Machine.execMrround rs1 rm s
  | .mrtest rm iters => Sys2Proof.Machine.execMrtest rm iters s

end Sys2Proof.Machine
end

