-- ==== Sys2Proof/Machine/Engine.lean ====
section
/-! DEFINITION. Whose turn it is: what each event does (R10, R36, R58, R70). -/

namespace Sys2Proof.Machine

/-- The engine's turn: the in-flight word is decoded and its command takes its step. With nothing in flight the engine
has no step and the unit keeps all its state (R36, R187; log entry 6). -/
def engineTurn (s : State) : Host.Outcome State Fault Refusal :=
  match s.inflight with
  | none => .next s
  | some f =>
    match decode f.word with
    | .ok i => exec i s
    | .error _ => .fault .illegalInFlight

/-- The collaborator returns `v`: the in-flight command takes it where a request is outstanding (R70, R156); an answer
that no request is waiting for is discarded (R192; log entry 10). -/
def rngTurn (v : Nat) (s : State) : Host.Outcome State Fault Refusal :=
  match s.pending with
  | none => .next s
  | some _ => engineTurn { s with rngReply := some v }

/-- What an event does. -/
def perform (e : Event) (s : State) : Host.Outcome State Fault Refusal :=
  match e with
  | .hostRead index => .next (s.hostRead index)
  | .hostWrite index data => .next (s.hostWrite index data)
  | .engine => engineTurn s
  | .rngAnswer v => rngTurn v s
  | .hardReset => .next s.hardReset

/-- The event of the next step: the script's first, or the engine's turn where the script is empty, so that an engine
step that is enabled is taken when nothing else happens any more (R203; log entries 4, 5). -/
def State.nextEvent (s : State) : Event := s.script.headD .engine

/-- The state without its first event. -/
def State.popEvent (s : State) : State := { s with script := s.script.tail }

/-- The next event is removed from the script and performed. -/
def advance (s : State) : Host.Outcome State Fault Refusal := perform s.nextEvent s.popEvent

/-- `w` is the word in flight, just taken, and the next turn is the engine's (log entry 15). -/
def State.withCommand (s : State) (w : Word) : State := { s.take w with script := .engine :: s.script }

end Sys2Proof.Machine
end

