-- ==== Sys2Proof/Machine/Step.lean ====
section
/-! DEFINITION. One step of the machine: the next event of the script (R58), or the engine's own turn where the script
is empty; and how an opcode-table word is put where the next step runs it. -/

namespace Sys2Proof.Machine

/-- One step. -/
def step (s : State) : Host.Outcome State Fault Refusal := advance s

/-- The unit does not fetch (R23): a command runs when its word has been taken by a CMD write (R30). This puts the
table's word in flight as a taken word, with the engine's turn next (log entry 15). -/
def State.withFetchWord (s : State) (nbits w : Nat) : State := s.withCommand (tableWord nbits w)

end Sys2Proof.Machine
end

