-- ==== Sys2Proof/Machine/HostActions.lean ====
section
/-! DEFINITION. The host's directives (R89) as events: what a program's host actions are on the host port. WAIT is a
repeated `statusRead` until DONE = 1. -/

namespace Sys2Proof.Machine

/-- `LOAD x<r>, v`: write all NWORDS words of the register, word 0 first (R89, R75). -/
def loadEvents (nwords : Nat) (r : RegNo) (v : Nat) : List Event :=
  (List.range nwords).map fun j => .hostWrite (windowIndex nwords r j) (wordOf v j)

/-- `READ x<r>`: read all NWORDS words (R89, R75). -/
def readEvents (nwords : Nat) (r : RegNo) : List Event :=
  (List.range nwords).map fun j => .hostRead (windowIndex nwords r j)

/-- The write of a command to CMD (R30, R194). -/
def issueEvent (i : Instr) : Event := .hostWrite 0 (encode i)

/-- One read of STATUS, the body of `WAIT` (R89). -/
def statusRead : Event := .hostRead 1

/-- `ACK`: 0x00000004 to STATUS (R89, R176). -/
def ackEvent : Event := .hostWrite 1 0x00000004

/-- `ACKV`: 0x00000010 to STATUS (R89). -/
def ackvEvent : Event := .hostWrite 1 0x00000010

/-- `SRST`: 0x00000001 to CTRL (R89, R191). -/
def srstEvent : Event := .hostWrite 2 0x00000001

/-- The turns an MRTEST takes when the collaborator returns these values: one issue and one answer for each (R156). -/
def drawEvents (draws : List Nat) : List Event :=
  draws.flatMap fun v => [.engine, .rngAnswer v]

end Sys2Proof.Machine
end

