-- ==== Sys2Proof/Machine/Tables.lean ====
section
/-! DEFINITION. Three tables of the spec about the commands, for statements over all of them: the registers read and
written (R22), the flag written (R22), and the errors a command can raise, in the order they are tested (R173, R174). -/

namespace Sys2Proof.Machine

/-- The registers a command reads (R22). -/
def sourcesOf (i : Instr) : List RegNo :=
  match i with
  | .mulmod _ rs1 rs2 rm => [rs1, rs2, rm]
  | .montmul _ rs1 rs2 rm => [rs1, rs2, rm]
  | .montr2 _ rm => [rm]
  | .powmod _ rs1 rs2 rm => [rs1, rs2, rm]
  | .gcd _ rs1 rs2 => [rs1, rs2]
  | .modinv _ rs1 rm => [rs1, rm]
  | .lambda _ rs1 rs2 => [rs1, rs2]
  | .mrround rs1 rm => [rs1, rm]
  | .mrtest rm _ => [rm]

/-- The register a command writes when it succeeds (R22); none for the two that write PRIME instead. -/
def destOf (i : Instr) : Option RegNo :=
  match i with
  | .mulmod rd _ _ _ => some rd
  | .montmul rd _ _ _ => some rd
  | .montr2 rd _ => some rd
  | .powmod rd _ _ _ => some rd
  | .gcd rd _ _ => some rd
  | .modinv rd _ _ => some rd
  | .lambda rd _ _ => some rd
  | .mrround _ _ => none
  | .mrtest _ _ => none

/-- The errors a command can raise (R173). -/
def errorsOf (i : Instr) : List CmdError :=
  match i with
  | .mulmod _ _ _ _ => [.modulusZero]
  | .montmul _ _ _ _ => [.modulusZero, .modulusEven]
  | .montr2 _ _ => [.modulusZero, .modulusEven]
  | .powmod _ _ _ _ => [.modulusZero]
  | .gcd _ _ _ => []
  | .modinv _ _ _ => [.modulusZero, .noInverse]
  | .lambda _ _ _ => [.operandRange, .resultOverflow]
  | .mrround _ _ => [.witnessRange]
  | .mrtest _ _ => [.witnessRange]

/-- The command is an MRTEST: the one command with several engine steps (R36). -/
def isMrtest (i : Instr) : Bool :=
  match i with
  | .mrtest _ _ => true
  | .mulmod _ _ _ _ => false
  | .montmul _ _ _ _ => false
  | .montr2 _ _ => false
  | .powmod _ _ _ _ => false
  | .gcd _ _ _ => false
  | .modinv _ _ _ => false
  | .lambda _ _ _ => false
  | .mrround _ _ => false

end Sys2Proof.Machine
end

