-- ==== Sys2Proof/Safety.lean ====
section
/-! DEFINITION. What a safe run is: the invariants of R34 and R35, the range of R20, and the error codes of R171, as
one predicate on states; and the words that claims are stated in. -/

namespace Sys2Proof.Machine

/-- The in-flight record fits its command (R35): `round` counts the rounds of an MRTEST, at most `iters`, and is 0
for every other command; a pending request has the bound `n - 3` of R156 and is one of an MRTEST that still has a round
to run; rounds are run only for `n >= 4`. -/
def FlightOk (s : State) (f : Inflight) (i : Instr) : Prop :=
  match i with
  | .mrtest rm iters =>
    f.round ≤ iters ∧ (0 < f.round → 4 ≤ s.x rm) ∧
      (f.pending = none ∨ f.pending = some (s.x rm - 3) ∧ 4 ≤ s.x rm ∧ f.round < iters)
  | .mulmod _ _ _ _ => f.round = 0 ∧ f.pending = none
  | .montmul _ _ _ _ => f.round = 0 ∧ f.pending = none
  | .montr2 _ _ => f.round = 0 ∧ f.pending = none
  | .powmod _ _ _ _ => f.round = 0 ∧ f.pending = none
  | .gcd _ _ _ => f.round = 0 ∧ f.pending = none
  | .modinv _ _ _ => f.round = 0 ∧ f.pending = none
  | .lambda _ _ _ => f.round = 0 ∧ f.pending = none
  | .mrround _ _ => f.round = 0 ∧ f.pending = none

/-- The invariant of the unit. -/
structure State.Inv (s : State) : Prop where
  /-- `1 <= NWORDS <= 65535` (R7). -/
  width : 1 ≤ s.nwords ∧ s.nwords ≤ Config.maxNwords
  /-- Every operand register holds a number below `2^W` (R8, R20). -/
  operands : ∀ r, s.x r < 2 ^ s.width
  /-- BUSY = 1 implies DONE = 0 and ERR = 0 (R34). -/
  busy_flags : s.status.busy = true → s.status.done = false ∧ s.status.err = false
  /-- ERR = 1 implies DONE = 1 and ECODE not 0x00 (R34). -/
  err_flags : s.status.err = true → s.status.done = true ∧ s.status.ecode ≠ 0x00
  /-- ERR = 0 implies ECODE = 0x00 (R34). -/
  no_err : s.status.err = false → s.status.ecode = 0x00
  /-- Codes not listed never appear (R171). -/
  listed : s.status.ecode.toNat ≤ 7
  /-- `inflight` is present exactly when BUSY = 1 (R34). -/
  busy_iff : s.status.busy = true ↔ s.inflight.isSome = true
  /-- LASTCMD is the word in flight (R34), a legal one (R30), and the record fits it (R35). -/
  flight : ∀ f, s.inflight = some f → f.word = s.lastCmd ∧ ∃ i, decode f.word = .ok i ∧ FlightOk s f i
  /-- The RNG port carries no value between steps (R70). -/
  quiet : s.rngReply = none

/-- A CMD write is taken: BUSY = 0 and ERR = 0 (R30, R60). -/
def State.ready (s : State) : Bool := !s.status.busy && !s.status.err

/-- Step a number of times, stopping at the first fault or refusal. -/
def runSteps (k : Nat) (s : State) : Host.Outcome State Fault Refusal :=
  match k with
  | 0 => .next s
  | k + 1 =>
    match step s with
    | .next t => runSteps k t
    | .fault r => .fault r
    | .refused r => .refused r

/-- The event writes 1 to bit `b` of STATUS. -/
def Event.clearsStatusBit (e : Event) (b : Nat) : Bool :=
  match e with
  | .hostWrite 1 d => d.getLsbD b
  | .hostWrite _ _ | .hostRead _ | .engine | .rngAnswer _ | .hardReset => false

/-- The event is a soft reset or a hard reset (R190, R191). -/
def Event.resets (e : Event) : Bool :=
  match e with
  | .hostWrite 2 d => d.getLsbD 0
  | .hardReset => true
  | .hostWrite _ _ | .hostRead _ | .engine | .rngAnswer _ => false

end Sys2Proof.Machine
end

