-- ==== Sys2Proof/Certificates/Slice0/Obligations.lean ====
section
/-! DEFINITION. The statements for the provers. Every one is about the machine, for every width and every state it
names. The three shapes a command can end in are written out here as records, so that a statement says what each field
becomes and does not lean on the model's own completion. -/

open Sys2Proof Sys2Proof.Machine

/-! ### How a command ends, written out -/

/-- The state after a command that wrote `v` to `x[rd]` and completed (R36): BUSY 0, DONE 1, nothing in flight, every
other field as it was. -/
def Sys2Proof.Machine.resultState (s : State) (rd : RegNo) (v : Nat) : State :=
  { s with
    regs := s.regs.set rd v
    status := { s.status with busy := false, done := true }
    inflight := none }

/-- The state after a command that wrote the verdict `b` to PRIME and completed (R28, R36). -/
def Sys2Proof.Machine.verdictState (s : State) (b : Bool) : State :=
  { s with
    status := { s.status with busy := false, done := true, prime := b }
    inflight := none }

/-- The state after a command error with this code (R175): ERR 1, ECODE the code, DONE 1, BUSY 0, nothing in flight,
every other field as it was, the operand registers and PRIME among them. -/
def Sys2Proof.Machine.errorState (s : State) (code : BitVec 8) : State :=
  { s with
    status := { s.status with busy := false, done := true, err := true, ecode := code }
    inflight := none }

/-- The register that bits `[lo+3 : lo]` of a word name (R81, R83). -/
def Sys2Proof.Machine.regAt (w : Word) (lo : Nat) : RegNo := Fin.ofNat 16 (w.toNat / 2 ^ lo)

/-! ### Encoding (30_encoding.md) -/

/-- R91: the worked encodings, and R90's SQRMOD as a MULMOD. -/
def Obligations.WorkedEncodingsDecode : Prop :=
  decode 0x01211000 = .ok (.mulmod 2 1 1 0) ∧ encode (.mulmod 2 1 1 0) = 0x01211000 ∧
  decode 0x01FEDC00 = .ok (.mulmod 15 14 13 12) ∧ encode (.mulmod 15 14 13 12) = 0x01FEDC00 ∧
  decode 0x02534000 = .ok (.montmul 5 3 4 0) ∧ encode (.montmul 5 3 4 0) = 0x02534000 ∧
  decode 0x03200000 = .ok (.montr2 2 0) ∧ encode (.montr2 2 0) = 0x03200000 ∧
  decode 0x04874000 = .ok (.powmod 8 7 4 0) ∧ encode (.powmod 8 7 4 0) = 0x04874000 ∧
  decode 0x05543000 = .ok (.gcd 5 4 3) ∧ encode (.gcd 5 4 3) = 0x05543000 ∧
  decode 0x06640300 = .ok (.modinv 6 4 3) ∧ encode (.modinv 6 4 3) = 0x06640300 ∧
  decode 0x07312000 = .ok (.lambda 3 1 2) ∧ encode (.lambda 3 1 2) = 0x07312000 ∧
  decode 0x08010000 = .ok (.mrround 1 0) ∧ encode (.mrround 1 0) = 0x08010000 ∧
  decode 0x09000032 = .ok (.mrtest 0 50) ∧ encode (.mrtest 0 50) = 0x09000032 ∧
  decode 0x09000FFF = .ok (.mrtest 15 255) ∧ encode (.mrtest 15 255) = 0x09000FFF ∧
  decode 0x01211001 = .error .unusedFieldNotZero ∧
  decode 0x05543300 = .error .unusedFieldNotZero ∧
  decode 0x0A000000 = .error .reservedOpcode

/-- R81, R84: the word of every command is the formula of its fields, with its opcode and zero in the fields its
format does not use. -/
def Obligations.EncodeFollowsWordFormula : Prop :=
  ∀ (rd rs1 rs2 rm : RegNo) (iters : Nat), iters < 256 →
    (encode (.mulmod rd rs1 rs2 rm)).toNat
      = 0x01 * 2 ^ 24 + rd.val * 2 ^ 20 + rs1.val * 2 ^ 16 + rs2.val * 2 ^ 12 + rm.val * 2 ^ 8 ∧
    (encode (.montmul rd rs1 rs2 rm)).toNat
      = 0x02 * 2 ^ 24 + rd.val * 2 ^ 20 + rs1.val * 2 ^ 16 + rs2.val * 2 ^ 12 + rm.val * 2 ^ 8 ∧
    (encode (.montr2 rd rm)).toNat = 0x03 * 2 ^ 24 + rd.val * 2 ^ 20 + rm.val * 2 ^ 8 ∧
    (encode (.powmod rd rs1 rs2 rm)).toNat
      = 0x04 * 2 ^ 24 + rd.val * 2 ^ 20 + rs1.val * 2 ^ 16 + rs2.val * 2 ^ 12 + rm.val * 2 ^ 8 ∧
    (encode (.gcd rd rs1 rs2)).toNat
      = 0x05 * 2 ^ 24 + rd.val * 2 ^ 20 + rs1.val * 2 ^ 16 + rs2.val * 2 ^ 12 ∧
    (encode (.modinv rd rs1 rm)).toNat = 0x06 * 2 ^ 24 + rd.val * 2 ^ 20 + rs1.val * 2 ^ 16 + rm.val * 2 ^ 8 ∧
    (encode (.lambda rd rs1 rs2)).toNat
      = 0x07 * 2 ^ 24 + rd.val * 2 ^ 20 + rs1.val * 2 ^ 16 + rs2.val * 2 ^ 12 ∧
    (encode (.mrround rs1 rm)).toNat = 0x08 * 2 ^ 24 + rs1.val * 2 ^ 16 + rm.val * 2 ^ 8 ∧
    (encode (.mrtest rm iters)).toNat = 0x09 * 2 ^ 24 + rm.val * 2 ^ 8 + iters

/-- R85: "the encoder of rule R81's formula is its inverse", on commands. -/
def Obligations.DecodeOfEncode : Prop :=
  ∀ i : Instr, i.wellFormed = true → decode (encode i) = .ok i

/-- R85: the same on words: a legal word decodes to a well-formed command whose word it is, so two different legal
words decode to different commands. -/
def Obligations.EncodeOfDecode : Prop :=
  (∀ (w : Word) (i : Instr), decode w = .ok i → i.wellFormed = true ∧ encode i = w) ∧
  ∀ (w v : Word) (i : Instr), decode w = .ok i → decode v = .ok i → w = v

/-- R84: a word selects the row whose `w & mask = match`, with the masks of R82: exactly those words decode to the
row's command. -/
def Obligations.MaskAndMatchSelectTheRow : Prop :=
  ∀ w : Word,
    (w &&& 0xFF0000FF = 0x01000000 ↔ ∃ rd rs1 rs2 rm, decode w = .ok (.mulmod rd rs1 rs2 rm)) ∧
    (w &&& 0xFF0000FF = 0x02000000 ↔ ∃ rd rs1 rs2 rm, decode w = .ok (.montmul rd rs1 rs2 rm)) ∧
    (w &&& 0xFF0FF0FF = 0x03000000 ↔ ∃ rd rm, decode w = .ok (.montr2 rd rm)) ∧
    (w &&& 0xFF0000FF = 0x04000000 ↔ ∃ rd rs1 rs2 rm, decode w = .ok (.powmod rd rs1 rs2 rm)) ∧
    (w &&& 0xFF000FFF = 0x05000000 ↔ ∃ rd rs1 rs2, decode w = .ok (.gcd rd rs1 rs2)) ∧
    (w &&& 0xFF00F0FF = 0x06000000 ↔ ∃ rd rs1 rm, decode w = .ok (.modinv rd rs1 rm)) ∧
    (w &&& 0xFF000FFF = 0x07000000 ↔ ∃ rd rs1 rs2, decode w = .ok (.lambda rd rs1 rs2)) ∧
    (w &&& 0xFFF0F0FF = 0x08000000 ↔ ∃ rs1 rm, decode w = .ok (.mrround rs1 rm)) ∧
    (w &&& 0xFFFFF000 = 0x09000000 ↔ ∃ rm iters, decode w = .ok (.mrtest rm iters))

/-- R85, R83: the operands of the decoded command are the numbers in its fields, at the places of R81. -/
def Obligations.DecodedOperandsAreTheFields : Prop :=
  ∀ (w : Word) (i : Instr), decode w = .ok i →
    i ∈ ([
      .mulmod (regAt w 20) (regAt w 16) (regAt w 12) (regAt w 8),
      .montmul (regAt w 20) (regAt w 16) (regAt w 12) (regAt w 8),
      .montr2 (regAt w 20) (regAt w 8),
      .powmod (regAt w 20) (regAt w 16) (regAt w 12) (regAt w 8),
      .gcd (regAt w 20) (regAt w 16) (regAt w 12),
      .modinv (regAt w 20) (regAt w 16) (regAt w 8),
      .lambda (regAt w 20) (regAt w 16) (regAt w 12),
      .mrround (regAt w 16) (regAt w 8),
      .mrtest (regAt w 8) (w.toNat % 2 ^ 8) ] : List Instr) ∧
    (encode i).toNat / 2 ^ 24 = w.toNat / 2 ^ 24

/-- R86: which words are illegal, and what taking one does, from every state in which a CMD write is taken. -/
def Obligations.IllegalWordsAndTheirError : Prop :=
  (∀ w : Word, (∃ r, decode w = .error r) ↔
    w.toNat / 2 ^ 24 = 0x00 ∨ 0x0A ≤ w.toNat / 2 ^ 24 ∨
    (w.toNat / 2 ^ 24 ∈ [0x01, 0x02, 0x04] ∧ w.toNat % 2 ^ 8 ≠ 0) ∨
    (w.toNat / 2 ^ 24 = 0x03 ∧ (w.toNat / 2 ^ 12 % 2 ^ 8 ≠ 0 ∨ w.toNat % 2 ^ 8 ≠ 0)) ∨
    (w.toNat / 2 ^ 24 ∈ [0x05, 0x07] ∧ w.toNat % 2 ^ 12 ≠ 0) ∨
    (w.toNat / 2 ^ 24 = 0x06 ∧ (w.toNat / 2 ^ 12 % 2 ^ 4 ≠ 0 ∨ w.toNat % 2 ^ 8 ≠ 0)) ∨
    (w.toNat / 2 ^ 24 = 0x08 ∧
      (w.toNat / 2 ^ 20 % 2 ^ 4 ≠ 0 ∨ w.toNat / 2 ^ 12 % 2 ^ 4 ≠ 0 ∨ w.toNat % 2 ^ 8 ≠ 0)) ∨
    (w.toNat / 2 ^ 24 = 0x09 ∧ w.toNat / 2 ^ 12 % 2 ^ 12 ≠ 0)) ∧
  (∃ r, decode 0x00000000 = .error r) ∧ (∃ r, decode 0xFFFFFFFF = .error r) ∧
  ∀ (s : State) (w : Word) (r : Illegal) (rest : List Event),
    s.status.busy = false → s.status.err = false → decode w = .error r → s.script = .hostWrite 0 w :: rest →
    step s = .next { s with
      script := rest
      lastCmd := w
      status := { s.status with done := true, err := true, ecode := 0x01 } }

/-! ### Reset (10_state.md, 70_reset_and_hazards.md) -/

/-- R37: the value of every piece of control state after hard reset, as the reset state of every width and as an event,
and after soft reset. Of the operand registers after hard reset it says only that they hold `W`-bit numbers (R20):
their values are unspecified. -/
def Obligations.ResetsLeaveTheStateOfTheTable : Prop :=
  (∀ n, (State.resetFor n).status = ⟨false, false, false, false, false, 0x00⟩ ∧
    (State.resetFor n).lastCmd = 0x00000000 ∧ (State.resetFor n).inflight = none ∧
    (State.resetFor n).nwords = n ∧ (State.resetFor n).peekWord 1 = 0x00000000) ∧
  (∀ (s t : State) (rest : List Event), s.script = .hardReset :: rest → step s = .next t →
    t.status = ⟨false, false, false, false, false, 0x00⟩ ∧ t.lastCmd = 0x00000000 ∧ t.inflight = none ∧
    t.peekWord 0 = 0x00000000 ∧ t.peekWord 1 = 0x00000000 ∧ t.peekWord 2 = 0x00000000 ∧
    t.peekWord 3 = s.peekWord 3 ∧ ∀ r, t.x r < 2 ^ (32 * s.nwords)) ∧
  ∀ (s t : State) (rest : List Event), s.script = .hostWrite 2 0x00000001 :: rest → step s = .next t →
    t.status = ⟨false, false, false, false, false, 0x00⟩ ∧ t.lastCmd = 0x00000000 ∧ t.inflight = none ∧
    t.peekWord 0 = 0x00000000 ∧ t.peekWord 1 = 0x00000000 ∧ t.peekWord 2 = 0x00000000 ∧
    t.peekWord 3 = s.peekWord 3 ∧ ∀ r, t.x r = s.x r

/-- R32, R191: a CTRL read returns 0; a CTRL write with bit 0 set is a soft reset at any time, also while BUSY = 1,
which clears the control state and leaves every operand register; any other CTRL write has no effect. -/
def Obligations.CtrlWriteIsSoftReset : Prop :=
  ∀ (s : State) (rest : List Event),
    (∀ d : Word, s.script = .hostWrite 2 d :: rest → d.getLsbD 0 = true →
      step s = .next { s with
        script := rest
        status := ⟨false, false, false, false, false, 0x00⟩
        lastCmd := 0x00000000
        inflight := none
        rngReply := none }) ∧
    (∀ d : Word, s.script = .hostWrite 2 d :: rest → d.getLsbD 0 = false →
      step s = .next { s with script := rest }) ∧
    (s.script = .hostRead 2 :: rest → step s = .next { s with script := rest, readData := 0x00000000 })

/-- After a soft reset an RNG answer is discarded and the engine's turn changes nothing. R192 says the discard where the
reset withdrew a request. The rest is the model's deduction: that an answer is discarded also where no request was
outstanding before the reset (log entry 10), and that the engine's turn with nothing in flight leaves the state as it is
(from R36 and R187, log entry 6). -/
def Obligations.LateAnswerIsDiscarded : Prop :=
  ∀ (s t : State) (d : Word) (v : Nat) (rest : List Event),
    d.getLsbD 0 = true → s.script = .hostWrite 2 d :: .rngAnswer v :: .engine :: rest →
    step s = .next t → runSteps 2 t = .next { t with script := rest }

/-! ### The host port (10_state.md, 20_memory.md) -/

/-- R52: the address map, by byte address divided by 4: every address has exactly the place the table gives it. -/
def Obligations.AddressMap : Prop :=
  ∀ n : Nat, 1 ≤ n →
    locate n (0x0000 / 4) = .cmd ∧ locate n (0x0004 / 4) = .status ∧ locate n (0x0008 / 4) = .ctrl ∧
    locate n (0x000C / 4) = .param ∧
    (∀ index, 0x0010 / 4 ≤ index → index ≤ 0x0FFC / 4 → locate n index = .reserved) ∧
    (∀ (i : RegNo) (j : Nat), j < n → locate n ((0x1000 + 4 * (i.val * n + j)) / 4) = .operand i j) ∧
    ∀ index, (0x1000 + 64 * n) / 4 ≤ index → locate n index = .reserved

/-- R24: the bits of STATUS, and a read of it at any time, which changes nothing but the port's word. -/
def Obligations.StatusReadsItsFields : Prop :=
  ∀ (s : State) (rest : List Event), s.script = .hostRead 1 :: rest →
    ∃ w : Word, step s = .next { s with script := rest, readData := w } ∧
      w.getLsbD 0 = s.status.busy ∧ w.getLsbD 1 = s.status.done ∧ w.getLsbD 2 = s.status.err ∧
      w.getLsbD 3 = s.status.prime ∧ w.getLsbD 4 = s.status.hviol ∧
      (∀ b, b < 8 → w.getLsbD (8 + b) = s.status.ecode.getLsbD b) ∧
      w.getLsbD 5 = false ∧ w.getLsbD 6 = false ∧ w.getLsbD 7 = false ∧
      ∀ b, 16 ≤ b → w.getLsbD b = false

/-- R30: a CMD read returns LASTCMD without a side effect; a CMD write does exactly one of three things. -/
def Obligations.CmdWriteDoesOneOfThree : Prop :=
  ∀ (s : State) (w : Word) (rest : List Event),
    (s.script = .hostRead 0 :: rest → step s = .next { s with script := rest, readData := s.lastCmd }) ∧
    (s.script = .hostWrite 0 w :: rest →
      ((s.status.busy = true ∨ s.status.err = true) →
        step s = .next { s with script := rest, status := { s.status with hviol := true } }) ∧
      (s.status.busy = false → s.status.err = false → ∀ r, decode w = .error r →
        step s = .next { s with
          script := rest
          lastCmd := w
          status := { s.status with done := true, err := true, ecode := 0x01 } }) ∧
      (s.status.busy = false → s.status.err = false → ∀ i, decode w = .ok i →
        step s = .next { s with
          script := rest
          lastCmd := w
          status := { s.status with busy := true, done := false }
          inflight := some { word := w, round := 0, pending := none } }))

/-- R33: a STATUS write clears ERR and ECODE by bit 2 and HVIOL by bit 4, and nothing else. -/
def Obligations.StatusWriteOneToClear : Prop :=
  ∀ (s : State) (d : Word) (rest : List Event), s.script = .hostWrite 1 d :: rest →
    step s = .next { s with
      script := rest
      status := { s.status with
        err := s.status.err && !d.getLsbD 2
        ecode := if d.getLsbD 2 then 0x00 else s.status.ecode
        hviol := s.status.hviol && !d.getLsbD 4 } }

/-- R31: PARAM holds NWORDS, NREG = 16 and VERSION = 1; writes to it have no effect; no step changes it. -/
def Obligations.ParamIsConstant : Prop :=
  (∀ (s : State) (rest : List Event), 1 ≤ s.nwords → s.nwords ≤ 65535 → s.script = .hostRead 3 :: rest →
    ∃ w : Word, step s = .next { s with script := rest, readData := w } ∧
      w.toNat % 2 ^ 16 = s.nwords ∧ w.toNat / 2 ^ 16 % 2 ^ 8 = 16 ∧ w.toNat / 2 ^ 24 = 1) ∧
  (∀ (s : State) (d : Word) (rest : List Event), s.script = .hostWrite 3 d :: rest →
    step s = .next { s with script := rest }) ∧
  (∀ s : State, s.nwords = 64 → s.peekWord 3 = 0x01100040) ∧
  ∀ s t : State, step s = .next t → t.peekWord 3 = s.peekWord 3

/-- R53: a read of a reserved address returns 0 and a write is ignored; neither changes any state, not even HVIOL. -/
def Obligations.ReservedAddressesReadZero : Prop :=
  ∀ (s : State) (index : Nat) (rest : List Event),
    0x0010 / 4 ≤ index ∧ index ≤ 0x0FFC / 4 ∨ (0x1000 + 64 * s.nwords) / 4 ≤ index →
    (s.script = .hostRead index :: rest → step s = .next { s with script := rest, readData := 0x00000000 }) ∧
    ∀ d, s.script = .hostWrite index d :: rest → step s = .next { s with script := rest }

/-- R56: the operand window, by byte address divided by 4. While BUSY = 1 a read returns 0 and a write changes no
register, and both set HVIOL. Else a read returns the word and a write replaces exactly its bits, whatever ERR is. -/
def Obligations.OperandWindowReadsAndWrites : Prop :=
  ∀ (s : State) (i : RegNo) (j : Nat) (rest : List Event), j < s.nwords →
    (s.script = .hostRead ((0x1000 + 4 * (i.val * s.nwords + j)) / 4) :: rest →
      (s.status.busy = true →
        step s = .next { s with
          script := rest, readData := 0x00000000, status := { s.status with hviol := true } }) ∧
      (s.status.busy = false →
        ∃ w : Word, step s = .next { s with script := rest, readData := w } ∧
          ∀ b, b < 32 → w.getLsbD b = (s.x i).testBit (32 * j + b))) ∧
    ∀ d : Word, s.script = .hostWrite ((0x1000 + 4 * (i.val * s.nwords + j)) / 4) d :: rest →
      (s.status.busy = true → step s = .next { s with script := rest, status := { s.status with hviol := true } }) ∧
      (s.status.busy = false →
        ∃ v : Nat, step s = .next { s with script := rest, regs := s.regs.set i v } ∧
          ∀ b, v.testBit b =
            if 32 * j ≤ b ∧ b < 32 * j + 32 then d.getLsbD (b - 32 * j) else (s.x i).testBit b)

/-- R54: an operand is the sum of its window words, word 0 the least significant, and a byte-addressed host sees the
bytes of a word little-endian. -/
def Obligations.LittleEndianWordsAndBytes : Prop :=
  (∀ (s : State) (i : RegNo), s.x i < 2 ^ (32 * s.nwords) →
    s.x i = ∑ j ∈ Finset.range s.nwords,
      (s.peekWord ((0x1000 + 4 * (i.val * s.nwords + j)) / 4)).toNat * 2 ^ (32 * j)) ∧
  ∀ (s : State) (index k b : Nat), k < 4 → b < 8 →
    (s.peekByte (4 * index + k)).getLsbD b = (s.peekWord index).getLsbD (8 * k + b)

/-- R29: HVIOL is set by exactly the accesses of the list, which change nothing else, and stays set until STATUS bit 4
is written or a reset. -/
def Obligations.HviolSetExactlyByIgnoredAccesses : Prop :=
  (∀ s t : State, step s = .next t → s.status.hviol = false → t.status.hviol = true →
    (∃ w, s.nextEvent = .hostWrite 0 w ∧ (s.status.busy = true ∨ s.status.err = true)) ∨
    ∃ i j index, locate s.nwords index = .operand i j ∧ s.status.busy = true ∧
      (s.nextEvent = .hostRead index ∨ ∃ d, s.nextEvent = .hostWrite index d)) ∧
  (∀ s t : State, step s = .next t → s.status.hviol = true → t.status.hviol = false →
    s.nextEvent.clearsStatusBit 4 = true ∨ s.nextEvent.resets = true) ∧
  ∀ (s : State) (i : RegNo) (j : Nat) (rest : List Event), j < s.nwords → s.status.busy = true →
    (s.script = .hostRead (windowIndex s.nwords i j) :: rest →
      step s = .next { s with script := rest, readData := 0, status := { s.status with hviol := true } }) ∧
    (∀ d, s.script = .hostWrite (windowIndex s.nwords i j) d :: rest →
      step s = .next { s with script := rest, status := { s.status with hviol := true } }) ∧
    ∀ w, s.script = .hostWrite 0 w :: rest →
      step s = .next { s with script := rest, status := { s.status with hviol := true } }

/-- R29: "HVIOL blocks nothing": a state that differs only in HVIOL takes the same step, in everything but HVIOL and
the word a read of STATUS returns. -/
def Obligations.HviolBlocksNothing : Prop :=
  ∀ (s t : State) (b : Bool), step s = .next t →
    ∃ u, step { s with status := { s.status with hviol := b } } = .next u ∧
      u.regs = t.regs ∧ u.lastCmd = t.lastCmd ∧ u.inflight = t.inflight ∧ u.rngReply = t.rngReply ∧
      u.script = t.script ∧ u.nwords = t.nwords ∧ u.freeCount = t.freeCount ∧
      { u.status with hviol := false } = { t.status with hviol := false } ∧
      (s.nextEvent ≠ .hostRead 1 → u.readData = t.readData)

/-- R89, R75: LOAD writes all words of a register, which then holds the value; nothing else changes. -/
def Obligations.LoadSetsTheRegister : Prop :=
  ∀ (s : State) (r : RegNo) (v : Nat) (rest : List Event),
    s.status.busy = false → s.x r < 2 ^ (32 * s.nwords) → v < 2 ^ (32 * s.nwords) →
    s.script = loadEvents s.nwords r v ++ rest →
    runSteps s.nwords s = .next { s with script := rest, regs := s.regs.set r v }

/-! ### A step runs the decoded command -/

/-- R36: the engine's turn, by event or with no event left, is `exec` of the command in flight; so is the collaborator's
answer to an outstanding request, the value standing on the RNG port. -/
def Obligations.StepRunsTheDecodedCommand : Prop :=
  ∀ (s : State) (f : Inflight) (i : Instr) (rest : List Event), s.inflight = some f → decode f.word = .ok i →
    (s.script = .engine :: rest → step s = exec i { s with script := rest }) ∧
    (s.script = [] → step s = exec i s) ∧
    ∀ b v, f.pending = some b → s.script = .rngAnswer v :: rest →
      step s = exec i { s with script := rest, rngReply := some v }

/-- The table word that `withFetchWord` places is the command the very next step runs, on the state in which it has
just been taken. -/
def Obligations.FetchedWordIsRunNext : Prop :=
  ∀ (s : State) (nbits w : Nat) (i : Instr), decodeTableWord nbits w = some i →
    step (s.withFetchWord nbits w)
      = exec i { s with
          lastCmd := tableWord nbits w
          status := { s.status with busy := true, done := false }
          inflight := some { word := tableWord nbits w, round := 0, pending := none } }

/-- R58, R194: on an idle, error-free unit the host's CMD write and then the engine's turn run the command it wrote. -/
def Obligations.IssuedCommandIsExecuted : Prop :=
  ∀ (s : State) (i : Instr) (rest : List Event), i.wellFormed = true → s.status.busy = false → s.status.err = false →
    s.script = issueEvent i :: .engine :: rest →
    runSteps 2 s = exec i { s with
      script := rest
      lastCmd := encode i
      status := { s.status with busy := true, done := false }
      inflight := some { word := encode i, round := 0, pending := none } }

/-! ### Results of the commands (files 40 to 45) -/

/-- R100: MULMOD, its result, its error and its encoding. -/
def Obligations.MulmodResult : Prop :=
  ∀ (s : State) (rd rs1 rs2 rm : RegNo),
    (s.x rm ≠ 0 → exec (.mulmod rd rs1 rs2 rm) s = .next (resultState s rd (s.x rs1 * s.x rs2 % s.x rm))) ∧
    (s.x rm = 0 → exec (.mulmod rd rs1 rs2 rm) s = .next (errorState s 0x02)) ∧
    decode (BitVec.ofNat 32 (0x01000000 + rd.val * 2 ^ 20 + rs1.val * 2 ^ 16 + rs2.val * 2 ^ 12 + rm.val * 2 ^ 8))
      = .ok (.mulmod rd rs1 rs2 rm)

/-- R110, R111: MONTMUL, for the radix `2^W`: the result is `a*b*Rinv mod m` for the `Rinv` of R110, which exists. -/
def Obligations.MontmulResult : Prop :=
  ∀ (s : State) (rd rs1 rs2 rm : RegNo),
    (s.x rm % 2 = 1 → ∃ rinv, rinv < s.x rm ∧ 2 ^ (32 * s.nwords) * rinv % s.x rm = 1 % s.x rm ∧
      exec (.montmul rd rs1 rs2 rm) s = .next (resultState s rd (s.x rs1 * s.x rs2 * rinv % s.x rm))) ∧
    (∀ rinv, rinv < s.x rm → 2 ^ (32 * s.nwords) * rinv % s.x rm = 1 % s.x rm → s.x rm % 2 = 1 →
      exec (.montmul rd rs1 rs2 rm) s = .next (resultState s rd (s.x rs1 * s.x rs2 * rinv % s.x rm))) ∧
    (s.x rm = 0 → exec (.montmul rd rs1 rs2 rm) s = .next (errorState s 0x02)) ∧
    (s.x rm ≠ 0 → s.x rm % 2 = 0 → exec (.montmul rd rs1 rs2 rm) s = .next (errorState s 0x03)) ∧
    decode (BitVec.ofNat 32 (0x02000000 + rd.val * 2 ^ 20 + rs1.val * 2 ^ 16 + rs2.val * 2 ^ 12 + rm.val * 2 ^ 8))
      = .ok (.montmul rd rs1 rs2 rm)

/-- R112: MONTR2, its result, its errors and its encoding. -/
def Obligations.Montr2Result : Prop :=
  ∀ (s : State) (rd rm : RegNo),
    (s.x rm % 2 = 1 → exec (.montr2 rd rm) s = .next (resultState s rd (2 ^ (2 * (32 * s.nwords)) % s.x rm))) ∧
    (s.x rm = 0 → exec (.montr2 rd rm) s = .next (errorState s 0x02)) ∧
    (s.x rm ≠ 0 → s.x rm % 2 = 0 → exec (.montr2 rd rm) s = .next (errorState s 0x03)) ∧
    decode (BitVec.ofNat 32 (0x03000000 + rd.val * 2 ^ 20 + rm.val * 2 ^ 8))
      = .ok (.montr2 rd rm)

/-- R120: POWMOD, with 1 for exponent 0 at every modulus and the modulus check first. -/
def Obligations.PowmodResult : Prop :=
  ∀ (s : State) (rd rs1 rs2 rm : RegNo),
    (s.x rm = 0 → exec (.powmod rd rs1 rs2 rm) s = .next (errorState s 0x02)) ∧
    (s.x rm ≠ 0 → s.x rs2 = 0 → exec (.powmod rd rs1 rs2 rm) s = .next (resultState s rd 1)) ∧
    (s.x rm ≠ 0 → s.x rs2 ≠ 0 →
      exec (.powmod rd rs1 rs2 rm) s = .next (resultState s rd (s.x rs1 ^ s.x rs2 % s.x rm))) ∧
    decode (BitVec.ofNat 32 (0x04000000 + rd.val * 2 ^ 20 + rs1.val * 2 ^ 16 + rs2.val * 2 ^ 12 + rm.val * 2 ^ 8))
      = .ok (.powmod rd rs1 rs2 rm)

/-- R130: GCD, which never raises an error. -/
def Obligations.GcdResult : Prop :=
  ∀ (s : State) (rd rs1 rs2 : RegNo),
    exec (.gcd rd rs1 rs2) s = .next (resultState s rd (Nat.gcd (s.x rs1) (s.x rs2))) ∧
    decode (BitVec.ofNat 32 (0x05000000 + rd.val * 2 ^ 20 + rs1.val * 2 ^ 16 + rs2.val * 2 ^ 12))
      = .ok (.gcd rd rs1 rs2)

/-- R132: MODINV: the unique inverse where there is one, else NoInverse and no result; modulus 0 is tested first. -/
def Obligations.ModinvResult : Prop :=
  ∀ (s : State) (rd rs1 rm : RegNo),
    (s.x rm = 0 → exec (.modinv rd rs1 rm) s = .next (errorState s 0x02)) ∧
    (s.x rm ≠ 0 → Nat.gcd (s.x rs1) (s.x rm) ≠ 1 → exec (.modinv rd rs1 rm) s = .next (errorState s 0x04)) ∧
    (s.x rm ≠ 0 → Nat.gcd (s.x rs1) (s.x rm) = 1 →
      ∃ t, (t < s.x rm ∧ s.x rs1 * t % s.x rm = 1 % s.x rm) ∧
        (∀ u, u < s.x rm → s.x rs1 * u % s.x rm = 1 % s.x rm → u = t) ∧
        exec (.modinv rd rs1 rm) s = .next (resultState s rd t)) ∧
    decode (BitVec.ofNat 32 (0x06000000 + rd.val * 2 ^ 20 + rs1.val * 2 ^ 16 + rm.val * 2 ^ 8))
      = .ok (.modinv rd rs1 rm)

/-- R140: LAMBDA: OperandRange first, then ResultOverflow, else the formula, which is the least common multiple. -/
def Obligations.LambdaResult : Prop :=
  ∀ (s : State) (rd rs1 rs2 : RegNo),
    (s.x rs1 < 2 ∨ s.x rs2 < 2 → exec (.lambda rd rs1 rs2) s = .next (errorState s 0x05)) ∧
    (2 ≤ s.x rs1 → 2 ≤ s.x rs2 →
      (s.x rs1 - 1) * (s.x rs2 - 1) / Nat.gcd (s.x rs1 - 1) (s.x rs2 - 1)
          = Nat.lcm (s.x rs1 - 1) (s.x rs2 - 1) ∧
      (2 ^ (32 * s.nwords) ≤ (s.x rs1 - 1) * (s.x rs2 - 1) / Nat.gcd (s.x rs1 - 1) (s.x rs2 - 1) →
        exec (.lambda rd rs1 rs2) s = .next (errorState s 0x06)) ∧
      ((s.x rs1 - 1) * (s.x rs2 - 1) / Nat.gcd (s.x rs1 - 1) (s.x rs2 - 1) < 2 ^ (32 * s.nwords) →
        exec (.lambda rd rs1 rs2) s = .next (resultState s rd
          ((s.x rs1 - 1) * (s.x rs2 - 1) / Nat.gcd (s.x rs1 - 1) (s.x rs2 - 1))))) ∧
    decode (BitVec.ofNat 32 (0x07000000 + rd.val * 2 ^ 20 + rs1.val * 2 ^ 16 + rs2.val * 2 ^ 12))
      = .ok (.lambda rd rs1 rs2)

/-- R140: "whenever the modulus `n = p*q` fits in `W` bits, LAMBDA cannot overflow". -/
def Obligations.LambdaOfAFittingModulusCompletes : Prop :=
  ∀ (s : State) (rd rs1 rs2 : RegNo), 2 ≤ s.x rs1 → 2 ≤ s.x rs2 → s.x rs1 * s.x rs2 < 2 ^ (32 * s.nwords) →
    ∃ L, L < s.x rs1 * s.x rs2 ∧ L = Nat.lcm (s.x rs1 - 1) (s.x rs2 - 1) ∧
      exec (.lambda rd rs1 rs2) s = .next (resultState s rd L)

/-- R151, R152: MRROUND: WitnessRange outside `[2, n - 2]`, PRIME unchanged; else the verdict of R151's equivalent form,
for the decomposition of R150. -/
def Obligations.MrroundResult : Prop :=
  ∀ (s : State) (rs1 rm : RegNo),
    (s.x rm < 4 ∨ s.x rs1 < 2 ∨ s.x rm - 2 < s.x rs1 →
      exec (.mrround rs1 rm) s = .next (errorState s 0x07)) ∧
    (4 ≤ s.x rm → 2 ≤ s.x rs1 → s.x rs1 ≤ s.x rm - 2 →
      ∃ (k r : Nat) (b : Bool), s.x rm - 1 = 2 ^ k * r ∧ r % 2 = 1 ∧
        exec (.mrround rs1 rm) s = .next (verdictState s b) ∧
        (b = true ↔ s.x rs1 ^ r % s.x rm = 1 ∨
          ∃ j, j ≤ k - 1 ∧ (s.x rs1 ^ r) ^ 2 ^ j % s.x rm = s.x rm - 1)) ∧
    decode (BitVec.ofNat 32 (0x08000000 + rs1.val * 2 ^ 16 + rm.val * 2 ^ 8))
      = .ok (.mrround rs1 rm)

/-- R150, R151: the decomposition is the one pair with `n - 1 = 2^s * r` and `r` odd, and the round predicate that
MRROUND and MRTEST evaluate is R151's equivalent form. -/
def Obligations.RoundPredicateIsMillerRabins : Prop :=
  ∀ n, 2 ≤ n →
    (∀ k r, n - 1 = 2 ^ k * r ∧ r % 2 = 1 ↔ (k, r) = decomp n) ∧
    ∀ a, 4 ≤ n → 2 ≤ a → a ≤ n - 2 →
      (roundPasses a n = true ↔ a ^ (decomp n).2 % n = 1 ∨
        ∃ j, j ≤ max ((decomp n).1 - 1) 0 ∧ (a ^ (decomp n).2 % n) ^ 2 ^ j % n = n - 1)

/-- R156: the engine steps of MRTEST: complete-early, complete-prime, issue, the three outcomes of an answer, and no
step while an answer is awaited. -/
def Obligations.MrtestSteps : Prop :=
  ∀ (s : State) (f : Inflight) (rm : RegNo) (iters : Nat), s.inflight = some f →
    (f.pending = none → f.round = 0 → s.x rm < 4 →
      exec (.mrtest rm iters) s = .next (verdictState s (s.x rm = 2 ∨ s.x rm = 3))) ∧
    (f.pending = none → 4 ≤ s.x rm → f.round = iters →
      exec (.mrtest rm iters) s = .next (verdictState s true)) ∧
    (f.pending = none → 4 ≤ s.x rm → f.round < iters →
      exec (.mrtest rm iters) s = .next { s with inflight := some { f with pending := some (s.x rm - 3) } }) ∧
    (f.pending = some (s.x rm - 3) → s.rngReply = none → exec (.mrtest rm iters) s = .next s) ∧
    ∀ v, f.pending = some (s.x rm - 3) → s.rngReply = some v →
      (s.x rm - 3 ≤ v →
        exec (.mrtest rm iters) s = .next (errorState { s with rngReply := none } 0x07)) ∧
      (v < s.x rm - 3 → roundPasses (v + 2) (s.x rm) = true →
        exec (.mrtest rm iters) s = .next { s with
          rngReply := none, inflight := some { f with round := f.round + 1, pending := none } }) ∧
      (v < s.x rm - 3 → roundPasses (v + 2) (s.x rm) = false →
        exec (.mrtest rm iters) s = .next (verdictState { s with rngReply := none } false))

/-- R157: the engine steps of an MRTEST, from the one in which it was taken, compute `MRTestOutcome` of the answers it
gets: the verdict or the error, after exactly that many RNG transactions. -/
def Obligations.MrtestStepsComputeOutcome : Prop :=
  ∀ (s : State) (w : Word) (rm : RegNo) (iters : Nat) (draws : List Nat) (o : MrOutcome) (k : Nat),
    s.inflight = some { word := w, round := 0, pending := none } → decode w = .ok (.mrtest rm iters) →
    s.rngReply = none → s.script = drawEvents draws → mrTestOutcome (s.x rm) iters draws = some (o, k) →
    k ≤ draws.length ∧
    (o = .composite → 4 ≤ s.x rm → runSteps (2 * k) s
      = .next { verdictState s false with script := s.script.drop (2 * k) }) ∧
    (o = .composite → s.x rm < 4 → runSteps 1 s = .next { verdictState s false with script := s.script.drop 1 }) ∧
    (o = .prime → runSteps (2 * k + 1) s
      = .next { verdictState s true with script := s.script.drop (2 * k + 1) }) ∧
    (o = .witnessRange → runSteps (2 * k) s
      = .next { errorState s 0x07 with script := s.script.drop (2 * k) })

/-- R203: every MRTEST ends: given an answer for each of its rounds, whatever the answers, it is over after at most
`2*iters + 1` of its turns. -/
def Obligations.AnsweredMrtestEnds : Prop :=
  ∀ (s : State) (w : Word) (rm : RegNo) (iters : Nat) (draws : List Nat),
    s.inflight = some { word := w, round := 0, pending := none } → decode w = .ok (.mrtest rm iters) →
    s.rngReply = none → s.script = drawEvents draws → iters ≤ draws.length →
    ∃ k t, k ≤ 2 * iters + 1 ∧ runSteps k s = .next t ∧ t.inflight = none ∧ t.status.busy = false ∧
      t.status.done = true ∧ ∀ r, t.x r = s.x r

/-- R153 (c): for every prime `n >= 5` every witness in range passes the round, so MRROUND reports PRIME = 1. -/
def Obligations.MrroundPassesEveryPrime : Prop :=
  ∀ (s : State) (rs1 rm : RegNo), Nat.Prime (s.x rm) → 5 ≤ s.x rm → 2 ≤ s.x rs1 → s.x rs1 ≤ s.x rm - 2 →
    exec (.mrround rs1 rm) s = .next (verdictState s true)

/-- R157: for a prime `n >= 5` the outcome is prime for every sequence of in-range draws, so the verdict composite is
never wrong. -/
def Obligations.CompositeVerdictIsNeverWrong : Prop :=
  ∀ (n iters : Nat) (draws : List Nat) (o : MrOutcome) (k : Nat),
    Nat.Prime n → 5 ≤ n → (∀ v ∈ draws, v < n - 3) → mrTestOutcome n iters draws = some (o, k) →
    o = .prime ∧ k = iters

/-- R113: the two laws that tie MONTMUL to MULMOD, at every width and every odd modulus. -/
def Obligations.MontgomeryLaws : Prop :=
  ∀ w a b m : Nat, m % 2 = 1 →
    montProduct w (montProduct w a b m) (radixSquare w m) m = a * b % m ∧
    montProduct w
      (montProduct w (montProduct w a (radixSquare w m) m) (montProduct w b (radixSquare w m) m) m) 1 m
      = a * b % m

/-- R114: the reference algorithm gives the Montgomery product where both factors are below the modulus. -/
def Obligations.ReferenceReductionAgrees : Prop :=
  ∀ w a b m : Nat, m % 2 = 1 → m < 2 ^ w → a < m → b < m → montReduce w a b m = montProduct w a b m

/-- R123, R124: a signature made by POWMOD with the private exponent verifies by POWMOD with the public one, for keys
that meet the source's invariants: `n = p*q`, distinct primes, `d*e = 1 (mod lcm(p-1, q-1))`. -/
def Obligations.SignThenVerifyRecoversTheMessage : Prop :=
  ∀ (s t : State) (p q : Nat) (rs rv rmsg rdexp reexp rm : RegNo),
    Nat.Prime p → Nat.Prime q → p ≠ q → s.x rm = p * q → s.x rmsg < s.x rm →
    s.x rdexp * s.x reexp % Nat.lcm (p - 1) (q - 1) = 1 % Nat.lcm (p - 1) (q - 1) →
    rs ≠ rm → rs ≠ reexp →
    exec (.powmod rs rmsg rdexp rm) s = .next t →
    exec (.powmod rv rs reexp rm) t = .next (resultState t rv (s.x rmsg))

/-! ### Tables and frames (10_state.md, 60_exceptions.md) -/

/-- R22: a command reads exactly its source registers, writes at most `x[rd]` and only when it completes without
error, and writes PRIME only if it is an MRROUND or MRTEST. The first clause compares two states that agree on the
sources. -/
def Obligations.CommandsReadSourcesAndWriteDestination : Prop :=
  (∀ (i : Instr) (s t : State) (other : Vector Nat 16), exec i s = .next t → s.status.err = false →
    (∀ r ∈ sourcesOf i, State.x { s with regs := other } r = s.x r) →
    ∃ u, exec i { s with regs := other } = .next u ∧ u.status = t.status ∧ u.inflight = t.inflight ∧
      u.rngReply = t.rngReply ∧
      (t.status.err = true → u.regs = other) ∧
      (t.status.err = false → ∀ rd, destOf i = some rd → u.x rd = t.x rd)) ∧
  (∀ (i : Instr) (s t : State) (r : RegNo), exec i s = .next t → destOf i ≠ some r → t.x r = s.x r) ∧
  (∀ (i : Instr) (s t : State), exec i s = .next t → s.status.err = false → t.status.err = true →
    t.regs = s.regs ∧ t.status.prime = s.status.prime) ∧
  ∀ (i : Instr) (s t : State), exec i s = .next t → destOf i ≠ none → t.status.prime = s.status.prime

/-- The frame of the seven commands with a destination register (R22, R36, R175): every other register, every window
word outside the destination's words, PRIME, HVIOL, LASTCMD, PARAM and both ports stay as they were, and no engine
record is left. -/
def Obligations.FrameOfRegisterCommands : Prop :=
  ∀ (i : Instr) (rd : RegNo) (s t : State), destOf i = some rd → exec i s = .next t →
    (∀ r, r ≠ rd → t.x r = s.x r) ∧
    (∀ index, inWindow s.nwords index = true → (∀ j, locate s.nwords index ≠ .operand rd j) →
      t.peekWord index = s.peekWord index) ∧
    t.status.prime = s.status.prime ∧ t.status.hviol = s.status.hviol ∧ t.status.busy = false ∧
    t.status.done = true ∧ t.inflight = none ∧ t.lastCmd = s.lastCmd ∧ t.nwords = s.nwords ∧
    t.readData = s.readData ∧ t.rngReply = s.rngReply ∧ t.script = s.script ∧ t.freeCount = s.freeCount

/-- The frame of MRROUND and MRTEST (R22, R155): no operand register and no window byte changes, nor HVIOL, LASTCMD,
PARAM or the host port; an MRTEST step that does not end the command leaves STATUS whole. -/
def Obligations.FrameOfVerdictCommands : Prop :=
  ∀ (i : Instr) (s t : State), destOf i = none → exec i s = .next t →
    (∀ r, t.x r = s.x r) ∧
    (∀ addr, inWindow s.nwords (addr / 4) = true → t.peekByte addr = s.peekByte addr) ∧
    t.status.hviol = s.status.hviol ∧ t.lastCmd = s.lastCmd ∧ t.nwords = s.nwords ∧
    t.readData = s.readData ∧ t.script = s.script ∧ t.freeCount = s.freeCount ∧
    (t.inflight ≠ none → t.status = s.status)

/-- R173, R175: the errors a command can end with are those of its row of the table, and the state is then R175's: no
register, no PRIME, no HVIOL, no LASTCMD changed. -/
def Obligations.ErrorsOfEachCommand : Prop :=
  ∀ (i : Instr) (s t : State), exec i s = .next t → s.status.err = false → t.status.err = true →
    ∃ e ∈ errorsOf i, 0x02 ≤ e.code.toNat ∧ e.code.toNat ≤ 0x07 ∧
      t = { errorState s e.code with rngReply := t.rngReply }

/-! ### Rules of the whole machine -/

/-- The state right after reset meets the invariant at every width R7 admits. That the operand registers fit rests on
the model's choice of zero for them (log entry 2). -/
def Obligations.ResetMeetsInvariant : Prop :=
  (∀ n, 1 ≤ n → n ≤ 65535 → (State.resetFor n).Inv) ∧ State.reset.Inv

/-- Every step keeps the invariant: R34's implications, operands below `2^W`, listed error codes, a legal and fitting
in-flight record, a quiet RNG port. -/
def Obligations.StepKeepsInvariant : Prop :=
  ∀ s t : State, s.Inv → step s = .next t → t.Inv

/-- From a state that meets the invariant the machine always has a next state: it never stops. -/
def Obligations.StepNeverStops : Prop :=
  ∀ s : State, s.Inv → ∃ t, step s = .next t

/-- R34: the invariants of every reachable state: every state the machine comes to from reset, at every width, under
every sequence of events. -/
def Obligations.ReachableStatesKeepStatusInvariants : Prop :=
  ∀ (n k : Nat) (events : List Event) (t : State), 1 ≤ n → n ≤ 65535 →
    runSteps k { State.resetFor n with script := events } = .next t →
    (t.status.busy = true → t.status.done = false ∧ t.status.err = false) ∧
    (t.status.err = true → t.status.done = true ∧ t.status.ecode ≠ 0x00) ∧
    (t.status.err = false → t.status.ecode = 0x00) ∧
    (t.inflight ≠ none ↔ t.status.busy = true) ∧
    ∀ f, t.inflight = some f → t.status.busy = true → t.lastCmd = f.word

/-- R25: what sets and clears BUSY, and what it forbids. -/
def Obligations.BusyIsSetAndClearedOnlyBy : Prop :=
  (∀ s t : State, step s = .next t → s.status.busy = false → t.status.busy = true →
    ∃ w i, s.nextEvent = .hostWrite 0 w ∧ decode w = .ok i ∧ s.status.err = false) ∧
  (∀ s t : State, step s = .next t → s.status.busy = true → t.status.busy = false →
    s.nextEvent.resets = true ∨
      (s.nextEvent = .engine ∨ ∃ v, s.nextEvent = .rngAnswer v) ∧ s.inflight ≠ none ∧ t.inflight = none ∧
        t.status.done = true) ∧
  ∀ (s t : State) (index : Nat) (d : Word), step s = .next t → s.status.busy = true →
    s.nextEvent = .hostWrite index d → s.nextEvent.resets = false →
    t.inflight = s.inflight ∧ t.lastCmd = s.lastCmd ∧ t.regs = s.regs

/-- R26: what sets and clears DONE. -/
def Obligations.DoneIsSetAndClearedOnlyBy : Prop :=
  (∀ s t : State, step s = .next t → s.status.done = true → t.status.done = false →
    s.nextEvent.resets = true ∨
      ∃ w i, s.nextEvent = .hostWrite 0 w ∧ decode w = .ok i ∧ s.status.busy = false ∧ s.status.err = false) ∧
  ∀ s t : State, step s = .next t → s.status.done = false → t.status.done = true →
    s.inflight ≠ none ∧ t.inflight = none ∨
      ∃ w r, s.nextEvent = .hostWrite 0 w ∧ decode w = .error r ∧ t.status.ecode = 0x01

/-- R27: ERR is sticky: it stays 1 and ECODE keeps its value until 1 is written to bit 2 of STATUS or a reset occurs. -/
def Obligations.ErrIsSticky : Prop :=
  ∀ s t : State, s.Inv → step s = .next t → s.status.err = true →
    s.nextEvent.clearsStatusBit 2 = false → s.nextEvent.resets = false →
    t.status.err = true ∧ t.status.ecode = s.status.ecode ∧ t.inflight = none ∧ t.lastCmd = s.lastCmd

/-- R28: PRIME is written only by the completion of an MRROUND or MRTEST without error, and cleared by the resets. -/
def Obligations.PrimeIsWrittenOnlyBy : Prop :=
  ∀ s t : State, step s = .next t → t.status.prime ≠ s.status.prime →
    s.nextEvent.resets = true ∧ t.status.prime = false ∨
      ∃ f i, s.inflight = some f ∧ decode f.word = .ok i ∧ destOf i = none ∧ t.inflight = none ∧
        t.status.done = true ∧ t.status.err = s.status.err

/-- R20, R36, R61: an operand register changes only by the completion of a command whose destination it is, by a host
write to one of its words while BUSY = 0, or by a hard reset. -/
def Obligations.OperandRegistersChangeOnlyBy : Prop :=
  ∀ (s t : State) (r : RegNo), s.Inv → step s = .next t → t.x r ≠ s.x r →
    (∃ f i, s.inflight = some f ∧ decode f.word = .ok i ∧ destOf i = some r ∧ s.nextEvent = .engine ∧
      t.inflight = none ∧ t.status.err = false) ∨
    (∃ j d, j < s.nwords ∧ s.nextEvent = .hostWrite (windowIndex s.nwords r j) d ∧ s.status.busy = false) ∨
    s.nextEvent = .hardReset

/-- R70, R71: a request appears on the RNG port only by an MRTEST with a round left to run, and its bound is `n - 3`,
at least 1. -/
def Obligations.OnlyMrtestRequestsRandomNumbers : Prop :=
  ∀ (s t : State) (b : Nat), step s = .next t → s.pending = none → t.pending = some b →
    ∃ f rm iters, s.inflight = some f ∧ decode f.word = .ok (.mrtest rm iters) ∧ f.round < iters ∧
      b = s.x rm - 3 ∧ 1 ≤ b

/-- R73: while the collaborator does not answer, the command stays in flight and BUSY stays 1, whatever else happens,
until a soft or hard reset, which ends it. -/
def Obligations.UnansweredRequestKeepsBusy : Prop :=
  (∀ (s : State) (b k : Nat), s.Inv → s.pending = some b →
    (∀ e ∈ s.script, e.resets = false ∧ ∀ v, e ≠ .rngAnswer v) →
    ∃ t, runSteps k s = .next t ∧ t.inflight = s.inflight ∧ t.status.busy = true) ∧
  ∀ s t : State, s.nextEvent.resets = true → step s = .next t → t.status.busy = false ∧ t.inflight = none
end

