-- ==== Sys2Proof/Laws/Arith.lean ====
section
/-! SUPPORT. Each loop of Machine/Arith.lean gives the value its rule defines: the gcd of R130, the power of R120, the
inverse of R132, the radix inverse of R110, the decomposition of R150 and the round predicate of R151. -/

namespace Sys2Proof.Machine

/-! ### gcd -/

theorem euclidLoop_eq_gcd (fuel a b : Nat) (h : b ≤ fuel) : euclidLoop fuel a b = Nat.gcd a b := by
  induction fuel generalizing a b with
  | zero =>
    obtain rfl : b = 0 := by omega
    simp [euclidLoop]
  | succ k ih =>
    rw [euclidLoop]
    split
    · next hb => simp [hb]
    · next hb =>
      have hlt : a % b < b := Nat.mod_lt _ (by omega)
      rw [ih b (a % b) (by omega), Nat.gcd_comm, ← Nat.gcd_rec, Nat.gcd_comm]

theorem gcdOf_eq_gcd (a b : Nat) : gcdOf a b = Nat.gcd a b := euclidLoop_eq_gcd _ _ _ (Nat.le_succ b)

/-! ### Power -/

theorem powLoop_eq (fuel v p e m : Nat) (h : e ≤ fuel) :
    powLoop fuel v p e m = if e = 0 then v else v * p ^ e % m := by
  induction fuel generalizing v p e with
  | zero =>
    obtain rfl : e = 0 := by omega
    simp [powLoop]
  | succ k ih =>
    rw [powLoop]
    split
    · rfl
    · next he =>
      have hpow : ∀ x : Nat, x * (p * p % m) ^ (e / 2) % m = x * p ^ (2 * (e / 2)) % m := fun x => by
        rw [Nat.mul_mod, ← Nat.pow_mod, ← Nat.mul_mod, ← pow_two, ← pow_mul]
      rw [ih _ _ _ (by omega)]
      rcases Nat.mod_two_eq_zero_or_one e with h2 | h2
      · have hne : e / 2 ≠ 0 := by omega
        rw [if_neg hne, if_neg (by omega), hpow, show 2 * (e / 2) = e by omega]
      · rw [if_pos h2]
        have hodd : v * p * p ^ (2 * (e / 2)) = v * p ^ e := by
          rw [mul_assoc, ← pow_succ', show 2 * (e / 2) + 1 = e by omega]
        split
        · next h0 => rw [← hodd, h0]; simp
        · rw [hpow, Nat.mod_mul_mod, hodd]

theorem powModOf_zero (b m : Nat) : powModOf b 0 m = 1 := by simp [powModOf, powLoop]

theorem powModOf_pos (b e m : Nat) (h : 0 < e) : powModOf b e m = b ^ e % m := by
  rw [powModOf, powLoop_eq _ _ _ _ _ le_rfl, if_neg (by omega), one_mul]

/-! ### Inverse -/

theorem inverseLoop_spec (n a : Int) (fuel r0 r1 : Nat) (t0 t1 : Int) (h : r1 ≤ fuel)
    (h0 : (r0 : Int) ≡ t0 * a [ZMOD n]) (h1 : (r1 : Int) ≡ t1 * a [ZMOD n]) :
    (inverseLoop fuel r0 r1 t0 t1).1 = Nat.gcd r0 r1 ∧
      ((inverseLoop fuel r0 r1 t0 t1).1 : Int) ≡ (inverseLoop fuel r0 r1 t0 t1).2 * a [ZMOD n] := by
  induction fuel generalizing r0 r1 t0 t1 with
  | zero =>
    obtain rfl : r1 = 0 := by omega
    simpa [inverseLoop] using h0
  | succ k ih =>
    rw [inverseLoop]
    split
    · next hr => subst hr; simpa using h0
    · next hr =>
      have hlt : r0 % r1 < r1 := Nat.mod_lt _ (by omega)
      have hstep : ((r0 % r1 : Nat) : Int) ≡ (t0 - (r0 / r1 : Nat) * t1) * a [ZMOD n] := by
        have e : ((r0 % r1 : Nat) : Int) = r0 - (r0 / r1 : Nat) * r1 := by
          have h2 : (r1 : Int) * (r0 / r1 : Nat) + (r0 % r1 : Nat) = r0 := by exact_mod_cast Nat.div_add_mod r0 r1
          linarith [mul_comm (r1 : Int) (r0 / r1 : Nat)]
        rw [e, sub_mul, mul_assoc]
        exact h0.sub (h1.mul_left _)
      obtain ⟨hg, hc⟩ := ih r1 (r0 % r1) t1 _ (by omega) h1 hstep
      refine ⟨?_, hc⟩
      rw [hg, Nat.gcd_comm, ← Nat.gcd_rec, Nat.gcd_comm]

/-- A number `t` is the inverse of `a` modulo `n` (R132). -/
def IsInverse (a n t : Nat) : Prop := t < n ∧ a * t % n = 1 % n

theorem IsInverse.unique {a n t u : Nat} (hg : Nat.gcd a n = 1) (ht : IsInverse a n t) (hu : IsInverse a n u) :
    t = u := by
  have h : a * t ≡ a * u [MOD n] := ht.2.trans hu.2.symm
  have h' : t ≡ u [MOD n] := Nat.ModEq.cancel_left_of_coprime (by rwa [Nat.gcd_comm]) h
  exact h'.eq_of_lt_of_lt ht.1 hu.1

theorem inverseOf_none {a n : Nat} (hg : Nat.gcd a n ≠ 1) : inverseOf a n = none := by
  have hs := inverseLoop_spec n a (a + 1) n a 0 1 (by omega) (by simp) (by simp)
  rw [Nat.gcd_comm] at hg
  simp [inverseOf, hs.1, hg]

theorem inverseOf_some {a n : Nat} (hn : 0 < n) (hg : Nat.gcd a n = 1) :
    ∃ t, inverseOf a n = some t ∧ IsInverse a n t := by
  have hs := inverseLoop_spec n a (a + 1) n a 0 1 (by omega) (by simp) (by simp)
  rw [Nat.gcd_comm, hg] at hs
  refine ⟨_, by simp only [inverseOf, hs.1, if_true]; rfl, ?_⟩
  have hn' : (0 : Int) < n := by omega
  set u := (inverseLoop (a + 1) n a 0 1).2
  have hmod := hs.2
  rw [hs.1] at hmod
  have hnn : 0 ≤ u % (n : Int) := Int.emod_nonneg _ (by omega)
  have hlt : u % (n : Int) < n := Int.emod_lt_of_pos _ hn'
  refine ⟨by omega, ?_⟩
  have hcast : ((a * (u % (n : Int)).toNat : Nat) : Int) ≡ ((1 : Nat) : Int) [ZMOD n] := by
    push_cast [Int.toNat_of_nonneg hnn]
    calc (a : Int) * (u % n) ≡ a * u [ZMOD n] := Int.ModEq.mul_left _ (Int.mod_modEq _ _)
      _ ≡ 1 [ZMOD n] := by rw [mul_comm]; exact hmod.symm
  exact (Int.natCast_modEq_iff.mp hcast)

/-- `inverseOf` finds exactly the inverse of R132. -/
theorem inverseOf_eq_some_iff {a n t : Nat} (hn : 0 < n) :
    inverseOf a n = some t ↔ Nat.gcd a n = 1 ∧ IsInverse a n t := by
  by_cases hg : Nat.gcd a n = 1
  · obtain ⟨u, hu, hi⟩ := inverseOf_some hn hg
    constructor
    · intro h
      obtain rfl : u = t := by simpa [hu] using h
      exact ⟨hg, hi⟩
    · rintro ⟨-, ht⟩
      rw [hu, hi.unique hg ht]
  · simp [inverseOf_none hg, hg]

theorem inverseOf_eq_none_iff {a n : Nat} (hn : 0 < n) : inverseOf a n = none ↔ Nat.gcd a n ≠ 1 := by
  constructor
  · intro h hg
    obtain ⟨u, hu, -⟩ := inverseOf_some hn hg
    simp [h] at hu
  · exact inverseOf_none

/-! ### Montgomery -/

theorem gcd_radix {w m : Nat} (hm : m % 2 = 1) : Nat.gcd (2 ^ w) m = 1 :=
  Nat.Coprime.pow_left w ((Nat.coprime_two_left).mpr (Nat.odd_iff.mpr hm))

/-- `radixInverse` is the `Rinv(m)` of R110. -/
theorem radixInverse_isInverse {w m : Nat} (hm : m % 2 = 1) : IsInverse (2 ^ w) m (radixInverse w m) := by
  obtain ⟨t, ht, hi⟩ := inverseOf_some (by omega : 0 < m) (gcd_radix (w := w) hm)
  simpa [radixInverse, ht] using hi

/-- The Montgomery product is below its modulus and, times `R`, is the ordinary product (R110, R111). -/
theorem montProduct_mul_radix {w a b m : Nat} (hm : m % 2 = 1) :
    montProduct w a b m * 2 ^ w ≡ a * b [MOD m] := by
  have hi := (radixInverse_isInverse (w := w) hm).2
  calc montProduct w a b m * 2 ^ w ≡ a * b * radixInverse w m * 2 ^ w [MOD m] :=
        Nat.ModEq.mul_right _ (Nat.mod_modEq _ _)
    _ = a * b * (2 ^ w * radixInverse w m) := by ring
    _ ≡ a * b * 1 [MOD m] := Nat.ModEq.mul_left _ hi
    _ = a * b := by ring

theorem montProduct_lt {w a b m : Nat} (hm : 0 < m) : montProduct w a b m < m := Nat.mod_lt _ hm

theorem radixSquare_lt {w m : Nat} (hm : 0 < m) : radixSquare w m < m := Nat.mod_lt _ hm

/-! ### Miller-Rabin -/

theorem halveLoop_spec (fuel s r : Nat) (h : r ≤ fuel) (hr : 0 < r) :
    2 ^ (halveLoop fuel s r).1 * (halveLoop fuel s r).2 = 2 ^ s * r ∧ (halveLoop fuel s r).2 % 2 = 1 := by
  induction fuel generalizing s r with
  | zero => omega
  | succ k ih =>
    rw [halveLoop]
    split
    · next h1 => exact ⟨rfl, h1⟩
    · next h1 =>
      obtain ⟨he, ho⟩ := ih (s + 1) (r / 2) (by omega) (by omega)
      refine ⟨?_, ho⟩
      rw [he, pow_succ, mul_assoc, show 2 * (r / 2) = r by omega]

/-- `decomp n` is the pair of R150. -/
theorem decomp_spec {n : Nat} (hn : 2 ≤ n) :
    n - 1 = 2 ^ (decomp n).1 * (decomp n).2 ∧ (decomp n).2 % 2 = 1 := by
  obtain ⟨he, ho⟩ := halveLoop_spec n 0 (n - 1) (by omega) (by omega)
  exact ⟨by rw [decomp, he, pow_zero, one_mul], ho⟩

/-- The squaring loop reaches `n - 1` within `k` squarings exactly if one of the first `k` squares is `n - 1`. -/
theorem squareLoop_eq_iff (k y n : Nat) (hn : 2 ≤ n) (hy : y < n) :
    squareLoop k y n = n - 1 ↔ ∃ j ≤ k, y ^ 2 ^ j % n = n - 1 := by
  induction k generalizing y with
  | zero => simp [squareLoop, Nat.mod_eq_of_lt hy]
  | succ k ih =>
    rw [squareLoop]
    split
    · next h => simp only [true_iff, h]; exact ⟨0, by omega, by simp⟩
    · next h =>
      rw [ih (y * y % n) (Nat.mod_lt _ (by omega))]
      have hpow : ∀ j, (y * y % n) ^ 2 ^ j % n = y ^ 2 ^ (j + 1) % n := fun j => by
        rw [← Nat.pow_mod, ← pow_two, ← pow_mul, ← pow_succ']
      simp only [hpow]
      constructor
      · rintro ⟨j, hj, e⟩; exact ⟨j + 1, by omega, e⟩
      · rintro ⟨j, hj, e⟩
        obtain _ | j := j
        · rw [pow_zero, pow_one, Nat.mod_eq_of_lt hy] at e; exact absurd e h
        · exact ⟨j, by omega, e⟩

/-- `roundPasses` in the equivalent form of R151. -/
theorem roundPasses_iff {a n : Nat} (hn : 2 ≤ n) :
    roundPasses a n = true ↔
      a ^ (decomp n).2 % n = 1 ∨
        ∃ j ≤ (decomp n).1 - 1, (a ^ (decomp n).2 % n) ^ 2 ^ j % n = n - 1 := by
  have hr : 0 < (decomp n).2 := by have := (decomp_spec hn).2; omega
  have hy : a ^ (decomp n).2 % n < n := Nat.mod_lt _ (by omega)
  have hloop := squareLoop_eq_iff ((decomp n).1 - 1) _ n hn hy
  simp only [roundPasses, powModOf_pos _ _ _ hr]
  split
  · next h => simp [hloop, h.1]
  · next h =>
    simp only [true_iff]
    by_cases h1 : a ^ (decomp n).2 % n = 1
    · exact Or.inl h1
    · have h2 : a ^ (decomp n).2 % n = n - 1 := by by_contra h2; exact h ⟨h1, h2⟩
      exact Or.inr ⟨0, by omega, by rw [pow_zero, pow_one, Nat.mod_mod, h2]⟩

end Sys2Proof.Machine
end

