-- ==== Sys2Proof/Laws/Decode.lean ====
section
/-! SUPPORT. The fields of an encoded word are the fields it was made of (R81), and a word is the number of its
fields. -/

namespace Sys2Proof

/-- The fields fit the widths of R81. -/
structure FieldsFit (op rd rs1 rs2 rm imm : Nat) : Prop where
  op : op < 256
  rd : rd < 16
  rs1 : rs1 < 16
  rs2 : rs2 < 16
  rm : rm < 16
  imm : imm < 256

variable {op rd rs1 rs2 rm imm : Nat}

theorem wordValue_toNat (h : FieldsFit op rd rs1 rs2 rm imm) :
    (BitVec.ofNat 32 (wordValue op rd rs1 rs2 rm imm)).toNat = wordValue op rd rs1 rs2 rm imm := by
  obtain ⟨h1, h2, h3, h4, h5, h6⟩ := h
  rw [BitVec.toNat_ofNat]
  exact Nat.mod_eq_of_lt (by unfold wordValue; omega)

theorem opcodeOf_wordValue (h : FieldsFit op rd rs1 rs2 rm imm) :
    opcodeOf (BitVec.ofNat 32 (wordValue op rd rs1 rs2 rm imm)) = op := by
  rw [opcodeOf, wordValue_toNat h]
  obtain ⟨h1, h2, h3, h4, h5, h6⟩ := h
  unfold slice wordValue; omega

theorem rdOf_wordValue (h : FieldsFit op rd rs1 rs2 rm imm) :
    rdOf (BitVec.ofNat 32 (wordValue op rd rs1 rs2 rm imm)) = rd := by
  rw [rdOf, wordValue_toNat h]
  obtain ⟨h1, h2, h3, h4, h5, h6⟩ := h
  unfold slice wordValue; omega

theorem rs1Of_wordValue (h : FieldsFit op rd rs1 rs2 rm imm) :
    rs1Of (BitVec.ofNat 32 (wordValue op rd rs1 rs2 rm imm)) = rs1 := by
  rw [rs1Of, wordValue_toNat h]
  obtain ⟨h1, h2, h3, h4, h5, h6⟩ := h
  unfold slice wordValue; omega

theorem rs2Of_wordValue (h : FieldsFit op rd rs1 rs2 rm imm) :
    rs2Of (BitVec.ofNat 32 (wordValue op rd rs1 rs2 rm imm)) = rs2 := by
  rw [rs2Of, wordValue_toNat h]
  obtain ⟨h1, h2, h3, h4, h5, h6⟩ := h
  unfold slice wordValue; omega

theorem rmOf_wordValue (h : FieldsFit op rd rs1 rs2 rm imm) :
    rmOf (BitVec.ofNat 32 (wordValue op rd rs1 rs2 rm imm)) = rm := by
  rw [rmOf, wordValue_toNat h]
  obtain ⟨h1, h2, h3, h4, h5, h6⟩ := h
  unfold slice wordValue; omega

theorem imm8Of_wordValue (h : FieldsFit op rd rs1 rs2 rm imm) :
    imm8Of (BitVec.ofNat 32 (wordValue op rd rs1 rs2 rm imm)) = imm := by
  rw [imm8Of, wordValue_toNat h]
  obtain ⟨h1, h2, h3, h4, h5, h6⟩ := h
  unfold slice wordValue; omega

theorem regOf_val (r : RegNo) : regOf r.val = r := Fin.ext (Nat.mod_eq_of_lt r.isLt)

theorem regOf_of_lt {f : Nat} (h : f < 16) : (regOf f).val = f := Nat.mod_eq_of_lt h

/-- Every field of a word fits its width. -/
theorem fieldsFit_of_word (w : Word) :
    FieldsFit (opcodeOf w) (rdOf w) (rs1Of w) (rs2Of w) (rmOf w) (imm8Of w) := by
  constructor <;> simp only [opcodeOf, rdOf, rs1Of, rs2Of, rmOf, imm8Of, slice] <;> omega

/-- A word is R81's formula of its own fields. -/
theorem word_eq_wordValue (w : Word) :
    w = BitVec.ofNat 32 (wordValue (opcodeOf w) (rdOf w) (rs1Of w) (rs2Of w) (rmOf w) (imm8Of w)) := by
  apply BitVec.eq_of_toNat_eq
  rw [wordValue_toNat (fieldsFit_of_word w)]
  have := w.isLt
  simp only [wordValue, opcodeOf, rdOf, rs1Of, rs2Of, rmOf, imm8Of, slice]
  omega

theorem whenZero_eq_ok_iff (unused : List Nat) (i j : Instr) :
    whenZero unused i = .ok j ↔ (∀ f ∈ unused, f = 0) ∧ i = j := by
  unfold whenZero
  split
  · next h => simpa using fun _ => by simpa using h
  · next h => simpa using fun h2 => absurd h2 (by simpa using h)

/-! ### Masks -/

/-- A bitwise and splits at a field's border. -/
theorem and_split (k q r mq mr : Nat) (hr : r < 2 ^ k) (hm : mr < 2 ^ k) :
    (q * 2 ^ k + r) &&& (mq * 2 ^ k + mr) = (q &&& mq) * 2 ^ k + (r &&& mr) := by
  have hlt : r &&& mr < 2 ^ k := lt_of_le_of_lt Nat.and_le_left hr
  apply Nat.eq_of_testBit_eq
  intro b
  simp only [Nat.mul_comm _ (2 ^ k)]
  rw [Nat.testBit_and, Nat.testBit_two_pow_mul_add _ hr, Nat.testBit_two_pow_mul_add _ hm,
    Nat.testBit_two_pow_mul_add _ hlt]
  split <;> simp

/-- Masking a word masks each of its fields. -/
theorem wordValue_and {mo md m1 m2 mm mi : Nat} (h : FieldsFit op rd rs1 rs2 rm imm) (g : FieldsFit mo md m1 m2 mm mi) :
    wordValue op rd rs1 rs2 rm imm &&& wordValue mo md m1 m2 mm mi =
      wordValue (op &&& mo) (rd &&& md) (rs1 &&& m1) (rs2 &&& m2) (rm &&& mm) (imm &&& mi) := by
  obtain ⟨h1, h2, h3, h4, h5, h6⟩ := h
  obtain ⟨g1, g2, g3, g4, g5, g6⟩ := g
  have : rd &&& md < 16 := lt_of_le_of_lt Nat.and_le_left h2
  simp only [wordValue, Nat.add_assoc]
  rw [and_split 24 _ _ _ _ (by omega) (by omega), and_split 20 _ _ _ _ (by omega) (by omega),
    and_split 16 _ _ _ _ (by omega) (by omega), and_split 12 _ _ _ _ (by omega) (by omega),
    and_split 8 _ _ _ _ (by omega) (by omega)]

/-- A mask of all ones keeps an eight-bit field. -/
theorem and_255_of_lt {a : Nat} (h : a < 256) : a &&& 255 = a := by
  have := Nat.and_two_pow_sub_one_eq_mod a 8
  norm_num at this; omega

/-- A mask of all ones keeps a four-bit field. -/
theorem and_15_of_lt {a : Nat} (h : a < 16) : a &&& 15 = a := by
  have := Nat.and_two_pow_sub_one_eq_mod a 4
  norm_num at this; omega

/-- `w & m = v`, field by field (R84). -/
theorem and_eq_iff_fields (w m v : Word) : w &&& m = v ↔
    wordValue (opcodeOf w &&& opcodeOf m) (rdOf w &&& rdOf m) (rs1Of w &&& rs1Of m) (rs2Of w &&& rs2Of m)
      (rmOf w &&& rmOf m) (imm8Of w &&& imm8Of m) = v.toNat := by
  rw [← wordValue_and (fieldsFit_of_word w) (fieldsFit_of_word m), ← BitVec.toNat_inj, BitVec.toNat_and]
  conv_lhs =>
    rw [word_eq_wordValue w, word_eq_wordValue m, wordValue_toNat (fieldsFit_of_word _),
      wordValue_toNat (fieldsFit_of_word _)]

end Sys2Proof
end

