-- ==== Sys2Proof/Laws/State.lean ====
section
/-! SUPPORT. One lemma for each field and each update of State and of STATUS, so that no later proof unfolds a record
update; and the value of an operand register after each update. -/

namespace Sys2Proof.Machine

/-! ### Fields of State -/

@[simp] theorem State.setX_nwords (s : State) (r : RegNo) (v : Nat) : (s.setX r v).nwords = s.nwords := rfl
@[simp] theorem State.setX_regs (s : State) (r : RegNo) (v : Nat) : (s.setX r v).regs = s.regs.set r v := rfl
@[simp] theorem State.setX_status (s : State) (r : RegNo) (v : Nat) : (s.setX r v).status = s.status := rfl
@[simp] theorem State.setX_lastCmd (s : State) (r : RegNo) (v : Nat) : (s.setX r v).lastCmd = s.lastCmd := rfl
@[simp] theorem State.setX_inflight (s : State) (r : RegNo) (v : Nat) : (s.setX r v).inflight = s.inflight := rfl
@[simp] theorem State.setX_readData (s : State) (r : RegNo) (v : Nat) : (s.setX r v).readData = s.readData := rfl
@[simp] theorem State.setX_rngReply (s : State) (r : RegNo) (v : Nat) : (s.setX r v).rngReply = s.rngReply := rfl
@[simp] theorem State.setX_script (s : State) (r : RegNo) (v : Nat) : (s.setX r v).script = s.script := rfl
@[simp] theorem State.setX_freeCount (s : State) (r : RegNo) (v : Nat) : (s.setX r v).freeCount = s.freeCount := rfl

@[simp] theorem State.finish_nwords (s : State) : (s.finish).nwords = s.nwords := rfl
@[simp] theorem State.finish_regs (s : State) : (s.finish).regs = s.regs := rfl
@[simp] theorem State.finish_status (s : State) : (s.finish).status = s.status.ended := rfl
@[simp] theorem State.finish_lastCmd (s : State) : (s.finish).lastCmd = s.lastCmd := rfl
@[simp] theorem State.finish_inflight (s : State) : (s.finish).inflight = none := rfl
@[simp] theorem State.finish_readData (s : State) : (s.finish).readData = s.readData := rfl
@[simp] theorem State.finish_rngReply (s : State) : (s.finish).rngReply = s.rngReply := rfl
@[simp] theorem State.finish_script (s : State) : (s.finish).script = s.script := rfl
@[simp] theorem State.finish_freeCount (s : State) : (s.finish).freeCount = s.freeCount := rfl

@[simp] theorem State.finishWith_nwords (s : State) (r : RegNo) (v : Nat) : (s.finishWith r v).nwords = s.nwords := rfl
@[simp] theorem State.finishWith_regs (s : State) (r : RegNo) (v : Nat) : (s.finishWith r v).regs = s.regs.set r v := rfl
@[simp] theorem State.finishWith_status (s : State) (r : RegNo) (v : Nat) : (s.finishWith r v).status = s.status.ended := rfl
@[simp] theorem State.finishWith_lastCmd (s : State) (r : RegNo) (v : Nat) : (s.finishWith r v).lastCmd = s.lastCmd := rfl
@[simp] theorem State.finishWith_inflight (s : State) (r : RegNo) (v : Nat) : (s.finishWith r v).inflight = none := rfl
@[simp] theorem State.finishWith_readData (s : State) (r : RegNo) (v : Nat) : (s.finishWith r v).readData = s.readData := rfl
@[simp] theorem State.finishWith_rngReply (s : State) (r : RegNo) (v : Nat) : (s.finishWith r v).rngReply = s.rngReply := rfl
@[simp] theorem State.finishWith_script (s : State) (r : RegNo) (v : Nat) : (s.finishWith r v).script = s.script := rfl
@[simp] theorem State.finishWith_freeCount (s : State) (r : RegNo) (v : Nat) : (s.finishWith r v).freeCount = s.freeCount := rfl

@[simp] theorem State.finishVerdict_nwords (s : State) (b : Bool) : (s.finishVerdict b).nwords = s.nwords := rfl
@[simp] theorem State.finishVerdict_regs (s : State) (b : Bool) : (s.finishVerdict b).regs = s.regs := rfl
@[simp] theorem State.finishVerdict_status (s : State) (b : Bool) : (s.finishVerdict b).status = { s.status.ended with prime := b } := rfl
@[simp] theorem State.finishVerdict_lastCmd (s : State) (b : Bool) : (s.finishVerdict b).lastCmd = s.lastCmd := rfl
@[simp] theorem State.finishVerdict_inflight (s : State) (b : Bool) : (s.finishVerdict b).inflight = none := rfl
@[simp] theorem State.finishVerdict_readData (s : State) (b : Bool) : (s.finishVerdict b).readData = s.readData := rfl
@[simp] theorem State.finishVerdict_rngReply (s : State) (b : Bool) : (s.finishVerdict b).rngReply = s.rngReply := rfl
@[simp] theorem State.finishVerdict_script (s : State) (b : Bool) : (s.finishVerdict b).script = s.script := rfl
@[simp] theorem State.finishVerdict_freeCount (s : State) (b : Bool) : (s.finishVerdict b).freeCount = s.freeCount := rfl

@[simp] theorem State.raise_nwords (s : State) (e : CmdError) : (s.raise e).nwords = s.nwords := rfl
@[simp] theorem State.raise_regs (s : State) (e : CmdError) : (s.raise e).regs = s.regs := rfl
@[simp] theorem State.raise_status (s : State) (e : CmdError) : (s.raise e).status = s.status.failed e := rfl
@[simp] theorem State.raise_lastCmd (s : State) (e : CmdError) : (s.raise e).lastCmd = s.lastCmd := rfl
@[simp] theorem State.raise_inflight (s : State) (e : CmdError) : (s.raise e).inflight = none := rfl
@[simp] theorem State.raise_readData (s : State) (e : CmdError) : (s.raise e).readData = s.readData := rfl
@[simp] theorem State.raise_rngReply (s : State) (e : CmdError) : (s.raise e).rngReply = s.rngReply := rfl
@[simp] theorem State.raise_script (s : State) (e : CmdError) : (s.raise e).script = s.script := rfl
@[simp] theorem State.raise_freeCount (s : State) (e : CmdError) : (s.raise e).freeCount = s.freeCount := rfl

@[simp] theorem State.writeStatus_nwords (s : State) (d : Word) : (s.writeStatus d).nwords = s.nwords := rfl
@[simp] theorem State.writeStatus_regs (s : State) (d : Word) : (s.writeStatus d).regs = s.regs := rfl
@[simp] theorem State.writeStatus_status (s : State) (d : Word) : (s.writeStatus d).status = s.status.writeClear d := rfl
@[simp] theorem State.writeStatus_lastCmd (s : State) (d : Word) : (s.writeStatus d).lastCmd = s.lastCmd := rfl
@[simp] theorem State.writeStatus_inflight (s : State) (d : Word) : (s.writeStatus d).inflight = s.inflight := rfl
@[simp] theorem State.writeStatus_readData (s : State) (d : Word) : (s.writeStatus d).readData = s.readData := rfl
@[simp] theorem State.writeStatus_rngReply (s : State) (d : Word) : (s.writeStatus d).rngReply = s.rngReply := rfl
@[simp] theorem State.writeStatus_script (s : State) (d : Word) : (s.writeStatus d).script = s.script := rfl
@[simp] theorem State.writeStatus_freeCount (s : State) (d : Word) : (s.writeStatus d).freeCount = s.freeCount := rfl

@[simp] theorem State.clearControl_nwords (s : State) : (s.clearControl).nwords = s.nwords := rfl
@[simp] theorem State.clearControl_regs (s : State) : (s.clearControl).regs = s.regs := rfl
@[simp] theorem State.clearControl_status (s : State) : (s.clearControl).status = Status.clear := rfl
@[simp] theorem State.clearControl_lastCmd (s : State) : (s.clearControl).lastCmd = 0x00000000 := rfl
@[simp] theorem State.clearControl_inflight (s : State) : (s.clearControl).inflight = none := rfl
@[simp] theorem State.clearControl_readData (s : State) : (s.clearControl).readData = s.readData := rfl
@[simp] theorem State.clearControl_rngReply (s : State) : (s.clearControl).rngReply = none := rfl
@[simp] theorem State.clearControl_script (s : State) : (s.clearControl).script = s.script := rfl
@[simp] theorem State.clearControl_freeCount (s : State) : (s.clearControl).freeCount = s.freeCount := rfl

@[simp] theorem State.softReset_nwords (s : State) : (s.softReset).nwords = s.nwords := rfl
@[simp] theorem State.softReset_regs (s : State) : (s.softReset).regs = s.regs := rfl
@[simp] theorem State.softReset_status (s : State) : (s.softReset).status = Status.clear := rfl
@[simp] theorem State.softReset_lastCmd (s : State) : (s.softReset).lastCmd = 0x00000000 := rfl
@[simp] theorem State.softReset_inflight (s : State) : (s.softReset).inflight = none := rfl
@[simp] theorem State.softReset_readData (s : State) : (s.softReset).readData = s.readData := rfl
@[simp] theorem State.softReset_rngReply (s : State) : (s.softReset).rngReply = none := rfl
@[simp] theorem State.softReset_script (s : State) : (s.softReset).script = s.script := rfl
@[simp] theorem State.softReset_freeCount (s : State) : (s.softReset).freeCount = s.freeCount := rfl

@[simp] theorem State.hardReset_nwords (s : State) : (s.hardReset).nwords = s.nwords := rfl
@[simp] theorem State.hardReset_status (s : State) : (s.hardReset).status = Status.clear := rfl
@[simp] theorem State.hardReset_lastCmd (s : State) : (s.hardReset).lastCmd = 0x00000000 := rfl
@[simp] theorem State.hardReset_inflight (s : State) : (s.hardReset).inflight = none := rfl
@[simp] theorem State.hardReset_readData (s : State) : (s.hardReset).readData = s.readData := rfl
@[simp] theorem State.hardReset_rngReply (s : State) : (s.hardReset).rngReply = none := rfl
@[simp] theorem State.hardReset_script (s : State) : (s.hardReset).script = s.script := rfl
@[simp] theorem State.hardReset_freeCount (s : State) : (s.hardReset).freeCount = s.freeCount + 1 := rfl

@[simp] theorem State.violate_nwords (s : State) : (s.violate).nwords = s.nwords := rfl
@[simp] theorem State.violate_regs (s : State) : (s.violate).regs = s.regs := rfl
@[simp] theorem State.violate_status (s : State) : (s.violate).status = s.status.violated := rfl
@[simp] theorem State.violate_lastCmd (s : State) : (s.violate).lastCmd = s.lastCmd := rfl
@[simp] theorem State.violate_inflight (s : State) : (s.violate).inflight = s.inflight := rfl
@[simp] theorem State.violate_readData (s : State) : (s.violate).readData = s.readData := rfl
@[simp] theorem State.violate_rngReply (s : State) : (s.violate).rngReply = s.rngReply := rfl
@[simp] theorem State.violate_script (s : State) : (s.violate).script = s.script := rfl
@[simp] theorem State.violate_freeCount (s : State) : (s.violate).freeCount = s.freeCount := rfl

@[simp] theorem State.take_nwords (s : State) (w : Word) : (s.take w).nwords = s.nwords := rfl
@[simp] theorem State.take_regs (s : State) (w : Word) : (s.take w).regs = s.regs := rfl
@[simp] theorem State.take_status (s : State) (w : Word) : (s.take w).status = s.status.taken := rfl
@[simp] theorem State.take_lastCmd (s : State) (w : Word) : (s.take w).lastCmd = w := rfl
@[simp] theorem State.take_inflight (s : State) (w : Word) : (s.take w).inflight = some { word := w, round := 0, pending := none } := rfl
@[simp] theorem State.take_readData (s : State) (w : Word) : (s.take w).readData = s.readData := rfl
@[simp] theorem State.take_rngReply (s : State) (w : Word) : (s.take w).rngReply = s.rngReply := rfl
@[simp] theorem State.take_script (s : State) (w : Word) : (s.take w).script = s.script := rfl
@[simp] theorem State.take_freeCount (s : State) (w : Word) : (s.take w).freeCount = s.freeCount := rfl

@[simp] theorem State.takeIllegal_nwords (s : State) (w : Word) : (s.takeIllegal w).nwords = s.nwords := rfl
@[simp] theorem State.takeIllegal_regs (s : State) (w : Word) : (s.takeIllegal w).regs = s.regs := rfl
@[simp] theorem State.takeIllegal_status (s : State) (w : Word) : (s.takeIllegal w).status = { s.status with done := true, err := true, ecode := CmdError.illegalCommand.code } := rfl
@[simp] theorem State.takeIllegal_lastCmd (s : State) (w : Word) : (s.takeIllegal w).lastCmd = w := rfl
@[simp] theorem State.takeIllegal_inflight (s : State) (w : Word) : (s.takeIllegal w).inflight = s.inflight := rfl
@[simp] theorem State.takeIllegal_readData (s : State) (w : Word) : (s.takeIllegal w).readData = s.readData := rfl
@[simp] theorem State.takeIllegal_rngReply (s : State) (w : Word) : (s.takeIllegal w).rngReply = s.rngReply := rfl
@[simp] theorem State.takeIllegal_script (s : State) (w : Word) : (s.takeIllegal w).script = s.script := rfl
@[simp] theorem State.takeIllegal_freeCount (s : State) (w : Word) : (s.takeIllegal w).freeCount = s.freeCount := rfl

@[simp] theorem State.issueRequest_nwords (s : State) (b : Nat) : (s.issueRequest b).nwords = s.nwords := rfl
@[simp] theorem State.issueRequest_regs (s : State) (b : Nat) : (s.issueRequest b).regs = s.regs := rfl
@[simp] theorem State.issueRequest_status (s : State) (b : Nat) : (s.issueRequest b).status = s.status := rfl
@[simp] theorem State.issueRequest_lastCmd (s : State) (b : Nat) : (s.issueRequest b).lastCmd = s.lastCmd := rfl
@[simp] theorem State.issueRequest_inflight (s : State) (b : Nat) : (s.issueRequest b).inflight = s.inflight.map fun f => { f with pending := some b } := rfl
@[simp] theorem State.issueRequest_readData (s : State) (b : Nat) : (s.issueRequest b).readData = s.readData := rfl
@[simp] theorem State.issueRequest_rngReply (s : State) (b : Nat) : (s.issueRequest b).rngReply = s.rngReply := rfl
@[simp] theorem State.issueRequest_script (s : State) (b : Nat) : (s.issueRequest b).script = s.script := rfl
@[simp] theorem State.issueRequest_freeCount (s : State) (b : Nat) : (s.issueRequest b).freeCount = s.freeCount := rfl

@[simp] theorem State.consumeReply_nwords (s : State) : (s.consumeReply).nwords = s.nwords := rfl
@[simp] theorem State.consumeReply_regs (s : State) : (s.consumeReply).regs = s.regs := rfl
@[simp] theorem State.consumeReply_status (s : State) : (s.consumeReply).status = s.status := rfl
@[simp] theorem State.consumeReply_lastCmd (s : State) : (s.consumeReply).lastCmd = s.lastCmd := rfl
@[simp] theorem State.consumeReply_inflight (s : State) : (s.consumeReply).inflight = s.inflight.map fun f => { f with pending := none } := rfl
@[simp] theorem State.consumeReply_readData (s : State) : (s.consumeReply).readData = s.readData := rfl
@[simp] theorem State.consumeReply_rngReply (s : State) : (s.consumeReply).rngReply = none := rfl
@[simp] theorem State.consumeReply_script (s : State) : (s.consumeReply).script = s.script := rfl
@[simp] theorem State.consumeReply_freeCount (s : State) : (s.consumeReply).freeCount = s.freeCount := rfl

@[simp] theorem State.nextRound_nwords (s : State) : (s.nextRound).nwords = s.nwords := rfl
@[simp] theorem State.nextRound_regs (s : State) : (s.nextRound).regs = s.regs := rfl
@[simp] theorem State.nextRound_status (s : State) : (s.nextRound).status = s.status := rfl
@[simp] theorem State.nextRound_lastCmd (s : State) : (s.nextRound).lastCmd = s.lastCmd := rfl
@[simp] theorem State.nextRound_inflight (s : State) : (s.nextRound).inflight = s.inflight.map fun f => { f with round := f.round + 1 } := rfl
@[simp] theorem State.nextRound_readData (s : State) : (s.nextRound).readData = s.readData := rfl
@[simp] theorem State.nextRound_rngReply (s : State) : (s.nextRound).rngReply = s.rngReply := rfl
@[simp] theorem State.nextRound_script (s : State) : (s.nextRound).script = s.script := rfl
@[simp] theorem State.nextRound_freeCount (s : State) : (s.nextRound).freeCount = s.freeCount := rfl

@[simp] theorem State.popEvent_nwords (s : State) : (s.popEvent).nwords = s.nwords := rfl
@[simp] theorem State.popEvent_regs (s : State) : (s.popEvent).regs = s.regs := rfl
@[simp] theorem State.popEvent_status (s : State) : (s.popEvent).status = s.status := rfl
@[simp] theorem State.popEvent_lastCmd (s : State) : (s.popEvent).lastCmd = s.lastCmd := rfl
@[simp] theorem State.popEvent_inflight (s : State) : (s.popEvent).inflight = s.inflight := rfl
@[simp] theorem State.popEvent_readData (s : State) : (s.popEvent).readData = s.readData := rfl
@[simp] theorem State.popEvent_rngReply (s : State) : (s.popEvent).rngReply = s.rngReply := rfl
@[simp] theorem State.popEvent_script (s : State) : (s.popEvent).script = s.script.tail := rfl
@[simp] theorem State.popEvent_freeCount (s : State) : (s.popEvent).freeCount = s.freeCount := rfl

@[simp] theorem State.withCommand_nwords (s : State) (w : Word) : (s.withCommand w).nwords = s.nwords := rfl
@[simp] theorem State.withCommand_regs (s : State) (w : Word) : (s.withCommand w).regs = s.regs := rfl
@[simp] theorem State.withCommand_status (s : State) (w : Word) : (s.withCommand w).status = s.status.taken := rfl
@[simp] theorem State.withCommand_lastCmd (s : State) (w : Word) : (s.withCommand w).lastCmd = w := rfl
@[simp] theorem State.withCommand_inflight (s : State) (w : Word) : (s.withCommand w).inflight = some { word := w, round := 0, pending := none } := rfl
@[simp] theorem State.withCommand_readData (s : State) (w : Word) : (s.withCommand w).readData = s.readData := rfl
@[simp] theorem State.withCommand_rngReply (s : State) (w : Word) : (s.withCommand w).rngReply = s.rngReply := rfl
@[simp] theorem State.withCommand_script (s : State) (w : Word) : (s.withCommand w).script = .engine :: s.script := rfl
@[simp] theorem State.withCommand_freeCount (s : State) (w : Word) : (s.withCommand w).freeCount = s.freeCount := rfl

/-! ### Operand registers and the width -/

@[simp] theorem State.setX_x (s : State) (r q : RegNo) (v : Nat) :
    (s.setX r v).x q = if q = r then v else s.x q := by
  simp only [State.x, State.setX, Vector.get_eq_getElem, Vector.getElem_set, Fin.ext_iff, eq_comm]

@[simp] theorem State.finishWith_x (s : State) (r q : RegNo) (v : Nat) :
    (s.finishWith r v).x q = if q = r then v else s.x q := State.setX_x s r q v

@[simp] theorem State.hardReset_x (s : State) (q : RegNo) :
    s.hardReset.x q = Config.unspecifiedOperand s.freeCount q.val % 2 ^ s.width := by
  simp [State.x, State.hardReset, Vector.get_eq_getElem]

@[simp] theorem State.resetFor_x (n : Nat) (q : RegNo) : (State.resetFor n).x q = 0 := by
  simp [State.x, State.resetFor, Vector.get_eq_getElem]

@[simp] theorem State.setX_width (s : State) (r : RegNo) (v : Nat) : (s.setX r v).width = s.width := rfl
@[simp] theorem State.finish_x (s : State) (q : RegNo) : (s.finish).x q = s.x q := rfl
@[simp] theorem State.finish_width (s : State) : (s.finish).width = s.width := rfl
@[simp] theorem State.finishWith_width (s : State) (r : RegNo) (v : Nat) : (s.finishWith r v).width = s.width := rfl
@[simp] theorem State.finishVerdict_x (s : State) (q : RegNo) (b : Bool) : (s.finishVerdict b).x q = s.x q := rfl
@[simp] theorem State.finishVerdict_width (s : State) (b : Bool) : (s.finishVerdict b).width = s.width := rfl
@[simp] theorem State.raise_x (s : State) (q : RegNo) (e : CmdError) : (s.raise e).x q = s.x q := rfl
@[simp] theorem State.raise_width (s : State) (e : CmdError) : (s.raise e).width = s.width := rfl
@[simp] theorem State.writeStatus_x (s : State) (q : RegNo) (d : Word) : (s.writeStatus d).x q = s.x q := rfl
@[simp] theorem State.writeStatus_width (s : State) (d : Word) : (s.writeStatus d).width = s.width := rfl
@[simp] theorem State.clearControl_x (s : State) (q : RegNo) : (s.clearControl).x q = s.x q := rfl
@[simp] theorem State.clearControl_width (s : State) : (s.clearControl).width = s.width := rfl
@[simp] theorem State.softReset_x (s : State) (q : RegNo) : (s.softReset).x q = s.x q := rfl
@[simp] theorem State.softReset_width (s : State) : (s.softReset).width = s.width := rfl
@[simp] theorem State.hardReset_width (s : State) : (s.hardReset).width = s.width := rfl
@[simp] theorem State.violate_x (s : State) (q : RegNo) : (s.violate).x q = s.x q := rfl
@[simp] theorem State.violate_width (s : State) : (s.violate).width = s.width := rfl
@[simp] theorem State.take_x (s : State) (q : RegNo) (w : Word) : (s.take w).x q = s.x q := rfl
@[simp] theorem State.take_width (s : State) (w : Word) : (s.take w).width = s.width := rfl
@[simp] theorem State.takeIllegal_x (s : State) (q : RegNo) (w : Word) : (s.takeIllegal w).x q = s.x q := rfl
@[simp] theorem State.takeIllegal_width (s : State) (w : Word) : (s.takeIllegal w).width = s.width := rfl
@[simp] theorem State.issueRequest_x (s : State) (q : RegNo) (b : Nat) : (s.issueRequest b).x q = s.x q := rfl
@[simp] theorem State.issueRequest_width (s : State) (b : Nat) : (s.issueRequest b).width = s.width := rfl
@[simp] theorem State.consumeReply_x (s : State) (q : RegNo) : (s.consumeReply).x q = s.x q := rfl
@[simp] theorem State.consumeReply_width (s : State) : (s.consumeReply).width = s.width := rfl
@[simp] theorem State.nextRound_x (s : State) (q : RegNo) : (s.nextRound).x q = s.x q := rfl
@[simp] theorem State.nextRound_width (s : State) : (s.nextRound).width = s.width := rfl
@[simp] theorem State.popEvent_x (s : State) (q : RegNo) : (s.popEvent).x q = s.x q := rfl
@[simp] theorem State.popEvent_width (s : State) : (s.popEvent).width = s.width := rfl
@[simp] theorem State.withCommand_x (s : State) (q : RegNo) (w : Word) : (s.withCommand w).x q = s.x q := rfl
@[simp] theorem State.withCommand_width (s : State) (w : Word) : (s.withCommand w).width = s.width := rfl

/-! ### STATUS -/

@[simp] theorem Status.taken_busy (f : Status) : (f.taken).busy = true := rfl
@[simp] theorem Status.taken_done (f : Status) : (f.taken).done = false := rfl
@[simp] theorem Status.taken_err (f : Status) : (f.taken).err = f.err := rfl
@[simp] theorem Status.taken_prime (f : Status) : (f.taken).prime = f.prime := rfl
@[simp] theorem Status.taken_hviol (f : Status) : (f.taken).hviol = f.hviol := rfl
@[simp] theorem Status.taken_ecode (f : Status) : (f.taken).ecode = f.ecode := rfl
@[simp] theorem Status.ended_busy (f : Status) : (f.ended).busy = false := rfl
@[simp] theorem Status.ended_done (f : Status) : (f.ended).done = true := rfl
@[simp] theorem Status.ended_err (f : Status) : (f.ended).err = f.err := rfl
@[simp] theorem Status.ended_prime (f : Status) : (f.ended).prime = f.prime := rfl
@[simp] theorem Status.ended_hviol (f : Status) : (f.ended).hviol = f.hviol := rfl
@[simp] theorem Status.ended_ecode (f : Status) : (f.ended).ecode = f.ecode := rfl
@[simp] theorem Status.failed_busy (f : Status) (e : CmdError) : (f.failed e).busy = false := rfl
@[simp] theorem Status.failed_done (f : Status) (e : CmdError) : (f.failed e).done = true := rfl
@[simp] theorem Status.failed_err (f : Status) (e : CmdError) : (f.failed e).err = true := rfl
@[simp] theorem Status.failed_prime (f : Status) (e : CmdError) : (f.failed e).prime = f.prime := rfl
@[simp] theorem Status.failed_hviol (f : Status) (e : CmdError) : (f.failed e).hviol = f.hviol := rfl
@[simp] theorem Status.failed_ecode (f : Status) (e : CmdError) : (f.failed e).ecode = e.code := rfl
@[simp] theorem Status.violated_busy (f : Status) : (f.violated).busy = f.busy := rfl
@[simp] theorem Status.violated_done (f : Status) : (f.violated).done = f.done := rfl
@[simp] theorem Status.violated_err (f : Status) : (f.violated).err = f.err := rfl
@[simp] theorem Status.violated_prime (f : Status) : (f.violated).prime = f.prime := rfl
@[simp] theorem Status.violated_hviol (f : Status) : (f.violated).hviol = true := rfl
@[simp] theorem Status.violated_ecode (f : Status) : (f.violated).ecode = f.ecode := rfl
@[simp] theorem Status.writeClear_busy (f : Status) (d : Word) : (f.writeClear d).busy = f.busy := rfl
@[simp] theorem Status.writeClear_done (f : Status) (d : Word) : (f.writeClear d).done = f.done := rfl
@[simp] theorem Status.writeClear_err (f : Status) (d : Word) : (f.writeClear d).err = if d.getLsbD 2 then false else f.err := rfl
@[simp] theorem Status.writeClear_prime (f : Status) (d : Word) : (f.writeClear d).prime = f.prime := rfl
@[simp] theorem Status.writeClear_hviol (f : Status) (d : Word) : (f.writeClear d).hviol = if d.getLsbD 4 then false else f.hviol := rfl
@[simp] theorem Status.writeClear_ecode (f : Status) (d : Word) : (f.writeClear d).ecode = if d.getLsbD 2 then 0x00 else f.ecode := rfl
@[simp] theorem Status.clear_busy : Status.clear.busy = false := rfl
@[simp] theorem Status.clear_done : Status.clear.done = false := rfl
@[simp] theorem Status.clear_err : Status.clear.err = false := rfl
@[simp] theorem Status.clear_prime : Status.clear.prime = false := rfl
@[simp] theorem Status.clear_hviol : Status.clear.hviol = false := rfl
@[simp] theorem Status.clear_ecode : Status.clear.ecode = 0x00 := rfl

/-! ### The in-flight record -/

theorem State.round_of_inflight {s : State} {f : Inflight} (h : s.inflight = some f) : s.round = f.round := by
  simp [State.round, h]

theorem State.pending_of_inflight {s : State} {f : Inflight} (h : s.inflight = some f) : s.pending = f.pending := by
  simp [State.pending, h]

theorem State.round_of_idle {s : State} (h : s.inflight = none) : s.round = 0 := by
  simp [State.round, h]

theorem State.pending_of_idle {s : State} (h : s.inflight = none) : s.pending = none := by
  simp [State.pending, h]

/-- Two operand registers of one state after an update of another part are the same registers. -/
theorem State.x_congr {s t : State} (h : t.regs = s.regs) (q : RegNo) : t.x q = s.x q := by
  simp [State.x, h]

end Sys2Proof.Machine
end

