-- ==== Sys2Proof/Laws/Operands.lean ====
section
/-! SUPPORT. The operand window: words of a value (R54), replacing one word (R21, R56), and the address map (R52). -/

namespace Sys2Proof.Machine

/-! ### Words of a value -/

theorem wordOf_getLsbD (v j b : Nat) : (wordOf v j).getLsbD b = (decide (b < 32) && v.testBit (32 * j + b)) := by
  simp [wordOf, BitVec.getLsbD_ofNat, Nat.testBit_div_two_pow, Nat.add_comm]

theorem replaceWord_eq (v j : Nat) (d : Word) :
    replaceWord v j d = 2 ^ (32 * j) * (2 ^ 32 * (v / 2 ^ (32 * j + 32)) + d.toNat) + v % 2 ^ (32 * j) := by
  rw [replaceWord, pow_add]
  ring

theorem replaceWord_testBit (v j : Nat) (d : Word) (b : Nat) :
    (replaceWord v j d).testBit b =
      if b < 32 * j then v.testBit b else if b < 32 * j + 32 then d.getLsbD (b - 32 * j) else v.testBit b := by
  rw [replaceWord_eq, Nat.testBit_two_pow_mul_add _ (Nat.mod_lt _ (by positivity)), Nat.testBit_mod_two_pow]
  split
  · next h => simp [h]
  · next h =>
    rw [Nat.testBit_two_pow_mul_add _ d.isLt]
    by_cases h2 : b < 32 * j + 32
    · rw [if_pos (by omega), if_pos h2]; rfl
    · rw [if_neg (by omega), if_neg h2, Nat.testBit_div_two_pow]
      congr 1; omega

/-- The written word reads back. -/
theorem wordOf_replaceWord_same (v j : Nat) (d : Word) : wordOf (replaceWord v j d) j = d := by
  apply BitVec.eq_of_getLsbD_eq
  intro b hb
  rw [wordOf_getLsbD, replaceWord_testBit, if_neg (by omega), if_pos (by omega)]
  simp [hb]

/-- Every other word is as it was (R21). -/
theorem wordOf_replaceWord_ne {v j k : Nat} (d : Word) (h : k ≠ j) : wordOf (replaceWord v j d) k = wordOf v k := by
  apply BitVec.eq_of_getLsbD_eq
  intro b hb
  rw [wordOf_getLsbD, wordOf_getLsbD, replaceWord_testBit]
  rcases Nat.lt_or_gt_of_ne h with h | h
  · rw [if_pos (by omega)]
  · rw [if_neg (by omega), if_neg (by omega)]

theorem wordOf_replaceWord (v j k : Nat) (d : Word) :
    wordOf (replaceWord v j d) k = if k = j then d else wordOf v k := by
  split
  · next h => rw [h, wordOf_replaceWord_same]
  · next h => exact wordOf_replaceWord_ne d h

/-- A value of `n` words stays one. -/
theorem replaceWord_lt {v j n : Nat} (d : Word) (hv : v < 2 ^ (32 * n)) (hj : j < n) :
    replaceWord v j d < 2 ^ (32 * n) := by
  apply Nat.lt_pow_two_of_testBit
  intro b hb
  rw [replaceWord_testBit, if_neg (by omega), if_neg (by omega)]
  exact Nat.testBit_lt_two_pow (lt_of_lt_of_le hv (Nat.pow_le_pow_right (by omega) hb))

theorem wordOf_toNat (v j : Nat) : (wordOf v j).toNat = v / 2 ^ (32 * j) % 2 ^ 32 := by simp [wordOf]

/-- A value of `n` words is the sum of its words (R54). -/
theorem value_eq_sum_words (v n : Nat) (hv : v < 2 ^ (32 * n)) :
    v = ∑ j ∈ Finset.range n, (wordOf v j).toNat * 2 ^ (32 * j) := by
  induction n generalizing v with
  | zero => simpa using hv
  | succ n ih =>
    rw [Finset.sum_range_succ]
    have hlow := ih (v % 2 ^ (32 * n)) (Nat.mod_lt _ (by positivity))
    have hw : ∀ j ∈ Finset.range n, (wordOf (v % 2 ^ (32 * n)) j).toNat * 2 ^ (32 * j)
        = (wordOf v j).toNat * 2 ^ (32 * j) := fun j hj => by
      have hj : j < n := Finset.mem_range.mp hj
      congr 2
      apply BitVec.eq_of_getLsbD_eq
      intro b hb
      rw [wordOf_getLsbD, wordOf_getLsbD, Nat.testBit_mod_two_pow, decide_eq_true (by omega : 32 * j + b < 32 * n)]
      simp
    rw [Finset.sum_congr rfl hw] at hlow
    rw [← hlow, wordOf_toNat, Nat.mod_eq_of_lt (a := v / 2 ^ (32 * n))]
    · have := Nat.div_add_mod v (2 ^ (32 * n)); linarith [Nat.mul_comm (v / 2 ^ (32 * n)) (2 ^ (32 * n))]
    · rw [Nat.div_lt_iff_lt_mul (by positivity), ← pow_add]
      convert hv using 2
      omega

/-- Two values of `n` words with the same words are equal. -/
theorem eq_of_words_eq {v u n : Nat} (hv : v < 2 ^ (32 * n)) (hu : u < 2 ^ (32 * n))
    (h : ∀ j < n, wordOf v j = wordOf u j) : v = u := by
  rw [value_eq_sum_words v n hv, value_eq_sum_words u n hu]
  exact Finset.sum_congr rfl fun j hj => by rw [h j (Finset.mem_range.mp hj)]

/-! ### The address map -/

/-- Word `j` of `x[i]` stands at its window index (R52). -/
theorem locate_windowIndex {n j : Nat} (i : RegNo) (hj : j < n) : locate n (windowIndex n i j) = .operand i j := by
  have hi := i.isLt
  have hlt : i.val * n + j < Config.nreg * n := by
    have : i.val * n + n ≤ 16 * n := by nlinarith
    simp only [Config.nreg]; omega
  have hdiv : (i.val * n + j) / n = i.val := by
    rw [Nat.mul_comm, Nat.mul_add_div (by omega), Nat.div_eq_of_lt hj, Nat.add_zero]
  have hmod : (i.val * n + j) % n = j := by rw [Nat.mul_comm, Nat.mul_add_mod, Nat.mod_eq_of_lt hj]
  unfold locate windowIndex Config.windowBase
  rw [if_neg (by omega), if_neg (by omega), if_neg (by omega), if_neg (by omega), if_neg (by omega),
    Nat.add_sub_cancel_left, if_pos hlt, hdiv, hmod]
  congr 1
  exact Fin.ext (Nat.mod_eq_of_lt hi)

/-- Only a window index of `R52`'s form stands in the window. -/
theorem eq_windowIndex_of_locate {n index : Nat} {i : RegNo} {j : Nat} (h : locate n index = .operand i j) :
    j < n ∧ index = windowIndex n i j := by
  unfold locate at h
  split_ifs at h with h0 h1 h2 h3 h4 h5
  obtain ⟨rfl, rfl⟩ := Location.operand.inj h
  have hn : 0 < n := by
    rcases Nat.eq_zero_or_pos n with rfl | hn
    · simp at h5
    · exact hn
  refine ⟨Nat.mod_lt _ hn, ?_⟩
  have hq : (index - Config.windowBase) / n < 16 := by
    rw [Nat.div_lt_iff_lt_mul hn]; exact h5
  have hdm := Nat.div_add_mod (index - Config.windowBase) n
  simp only [windowIndex, Fin.ofNat, Nat.mod_eq_of_lt hq]
  rw [Nat.mul_comm] at hdm
  omega

/-- The registers and reserved addresses below the window (R52, R53). -/
theorem locate_cmd (n : Nat) : locate n 0 = .cmd := rfl
@[inherit_doc locate_cmd] theorem locate_status (n : Nat) : locate n 1 = .status := rfl
@[inherit_doc locate_cmd] theorem locate_ctrl (n : Nat) : locate n 2 = .ctrl := rfl
@[inherit_doc locate_cmd] theorem locate_param (n : Nat) : locate n 3 = .param := rfl

theorem locate_reserved_low {n index : Nat} (h4 : 4 ≤ index) (hb : index < 0x400) : locate n index = .reserved := by
  unfold locate Config.windowBase
  rw [if_neg (by omega), if_neg (by omega), if_neg (by omega), if_neg (by omega), if_pos hb]

theorem locate_reserved_high {n index : Nat} (h : 0x400 + 16 * n ≤ index) : locate n index = .reserved := by
  unfold locate Config.windowBase Config.nreg
  rw [if_neg (by omega), if_neg (by omega), if_neg (by omega), if_neg (by omega), if_neg (by omega), if_neg (by omega)]

end Sys2Proof.Machine
end

