-- ==== Sys2Proof/Laws/PerInstr.lean ====
section
/-! SUPPORT. Per-instruction families. `DecodeEncode`: decoding the encoding of a well-formed command gives the
command back, with every operand (R85). -/

namespace Sys2Proof.Laws.DecodeEncode

/-- Decoding the word of a well-formed command gives that command. -/
def Statement (i : Instr) : Prop := i.wellFormed = true → decode (encode i) = .ok i

/-- Decoding a word of known fields: the opcode picks the arm. -/
theorem decode_fields {op imm : Nat} {rd rs1 rs2 rm : Nat} (h : FieldsFit op rd rs1 rs2 rm imm) :
    let w := BitVec.ofNat 32 (wordValue op rd rs1 rs2 rm imm)
    opcodeOf w = op ∧ rdOf w = rd ∧ rs1Of w = rs1 ∧ rs2Of w = rs2 ∧ rmOf w = rm ∧ imm8Of w = imm :=
  ⟨opcodeOf_wordValue h, rdOf_wordValue h, rs1Of_wordValue h, rs2Of_wordValue h, rmOf_wordValue h, imm8Of_wordValue h⟩

theorem mulmod (rd rs1 rs2 rm : RegNo) : Statement (.mulmod rd rs1 rs2 rm) := fun _ => by
  obtain ⟨h1, h2, h3, h4, h5, h6⟩ := decode_fields (op := 0x01) (imm := 0)
    ⟨by decide, rd.isLt, rs1.isLt, rs2.isLt, rm.isLt, by decide⟩
  simp only [decode, encode, h1, h2, h3, h4, h5, h6, regOf_val, whenZero]
  rfl

theorem montmul (rd rs1 rs2 rm : RegNo) : Statement (.montmul rd rs1 rs2 rm) := fun _ => by
  obtain ⟨h1, h2, h3, h4, h5, h6⟩ := decode_fields (op := 0x02) (imm := 0)
    ⟨by decide, rd.isLt, rs1.isLt, rs2.isLt, rm.isLt, by decide⟩
  simp only [decode, encode, h1, h2, h3, h4, h5, h6, regOf_val, whenZero]
  rfl

theorem montr2 (rd rm : RegNo) : Statement (.montr2 rd rm) := fun _ => by
  obtain ⟨h1, h2, h3, h4, h5, h6⟩ := decode_fields (op := 0x03) (imm := 0) (rs1 := 0) (rs2 := 0)
    ⟨by decide, rd.isLt, by decide, by decide, rm.isLt, by decide⟩
  simp only [decode, encode, h1, h2, h3, h4, h5, h6, regOf_val, whenZero]
  rfl

theorem powmod (rd rs1 rs2 rm : RegNo) : Statement (.powmod rd rs1 rs2 rm) := fun _ => by
  obtain ⟨h1, h2, h3, h4, h5, h6⟩ := decode_fields (op := 0x04) (imm := 0)
    ⟨by decide, rd.isLt, rs1.isLt, rs2.isLt, rm.isLt, by decide⟩
  simp only [decode, encode, h1, h2, h3, h4, h5, h6, regOf_val, whenZero]
  rfl

theorem gcd (rd rs1 rs2 : RegNo) : Statement (.gcd rd rs1 rs2) := fun _ => by
  obtain ⟨h1, h2, h3, h4, h5, h6⟩ := decode_fields (op := 0x05) (imm := 0) (rm := 0)
    ⟨by decide, rd.isLt, rs1.isLt, rs2.isLt, by decide, by decide⟩
  simp only [decode, encode, h1, h2, h3, h4, h5, h6, regOf_val, whenZero]
  rfl

theorem modinv (rd rs1 rm : RegNo) : Statement (.modinv rd rs1 rm) := fun _ => by
  obtain ⟨h1, h2, h3, h4, h5, h6⟩ := decode_fields (op := 0x06) (imm := 0) (rs2 := 0)
    ⟨by decide, rd.isLt, rs1.isLt, by decide, rm.isLt, by decide⟩
  simp only [decode, encode, h1, h2, h3, h4, h5, h6, regOf_val, whenZero]
  rfl

theorem lambda (rd rs1 rs2 : RegNo) : Statement (.lambda rd rs1 rs2) := fun _ => by
  obtain ⟨h1, h2, h3, h4, h5, h6⟩ := decode_fields (op := 0x07) (imm := 0) (rm := 0)
    ⟨by decide, rd.isLt, rs1.isLt, rs2.isLt, by decide, by decide⟩
  simp only [decode, encode, h1, h2, h3, h4, h5, h6, regOf_val, whenZero]
  rfl

theorem mrround (rs1 rm : RegNo) : Statement (.mrround rs1 rm) := fun _ => by
  obtain ⟨h1, h2, h3, h4, h5, h6⟩ := decode_fields (op := 0x08) (imm := 0) (rd := 0) (rs2 := 0)
    ⟨by decide, by decide, rs1.isLt, by decide, rm.isLt, by decide⟩
  simp only [decode, encode, h1, h2, h3, h4, h5, h6, regOf_val, whenZero]
  rfl

theorem mrtest (rm : RegNo) (iters : Nat) : Statement (.mrtest rm iters) := fun h => by
  have hi : iters < 256 := by simpa [Instr.wellFormed] using h
  obtain ⟨h1, h2, h3, h4, h5, h6⟩ := decode_fields (op := 0x09) (imm := iters) (rd := 0) (rs1 := 0) (rs2 := 0)
    ⟨by decide, by decide, by decide, by decide, rm.isLt, hi⟩
  simp only [decode, encode, h1, h2, h3, h4, h5, h6, regOf_val, whenZero]
  rfl

end Sys2Proof.Laws.DecodeEncode
end

