-- ==== Sys2Proof/Laws/Safety.lean ====
section
/-! SUPPORT. What the ways a command can end do to the invariant, once for each. -/

namespace Sys2Proof.Machine

/-- The invariant does not speak of the events to come. -/
theorem State.Inv.scripted {s : State} (h : s.Inv) (es : List Event) : State.Inv { s with script := es } :=
  ⟨h.width, h.operands, h.busy_flags, h.err_flags, h.no_err, h.listed, h.busy_iff, h.flight, h.quiet⟩

/-- While a command is in flight BUSY is 1, ERR 0 and ECODE 0x00. -/
theorem State.Inv.flags_in_flight {s : State} (h : s.Inv) {f : Inflight} (hf : s.inflight = some f) :
    s.status.busy = true ∧ s.status.err = false ∧ s.status.ecode = 0x00 := by
  have hb : s.status.busy = true := h.busy_iff.mpr (by simp [hf])
  exact ⟨hb, (h.busy_flags hb).2, h.no_err (h.busy_flags hb).2⟩

/-- Every code of R171 is listed and none is 0x00. -/
theorem CmdError.code_listed (e : CmdError) : e.code ≠ 0x00 ∧ e.code.toNat ≤ 7 := by cases e <;> decide

/-- A state in which a command has ended meets the invariant if its operands and error fields do. -/
theorem State.Inv.ended {s t : State} (h : s.Inv) (hn : t.nwords = s.nwords) (hx : ∀ r, t.x r < 2 ^ t.width)
    (hb : t.status.busy = false) (hi : t.inflight = none) (hr : t.rngReply = none)
    (he : t.status.err = true → t.status.done = true ∧ t.status.ecode ≠ 0x00)
    (hz : t.status.err = false → t.status.ecode = 0x00) (hl : t.status.ecode.toNat ≤ 7) : t.Inv :=
  ⟨by rw [hn]; exact h.width, hx, by simp [hb], he, hz, hl, by simp [hb, hi], by simp [hi], hr⟩

theorem State.Inv.raise {s : State} (h : s.Inv) (e : CmdError) : (s.raise e).Inv :=
  h.ended rfl h.operands rfl rfl h.quiet (fun _ => ⟨rfl, e.code_listed.1⟩) (by simp) e.code_listed.2

theorem State.Inv.finishVerdict {s : State} (h : s.Inv) {f : Inflight} (hf : s.inflight = some f) (b : Bool) :
    (s.finishVerdict b).Inv := by
  obtain ⟨-, he, hz⟩ := h.flags_in_flight hf
  exact h.ended rfl h.operands rfl rfl h.quiet (fun h => by simp [he] at h) (fun _ => hz) (by simp [hz])

theorem State.Inv.finishWith {s : State} (h : s.Inv) {f : Inflight} (hf : s.inflight = some f) (rd : RegNo) {v : Nat}
    (hv : v < 2 ^ s.width) : (s.finishWith rd v).Inv := by
  obtain ⟨-, he, hz⟩ := h.flags_in_flight hf
  refine h.ended rfl (fun r => ?_) rfl rfl h.quiet (fun h => by simp [he] at h) (fun _ => hz) (by simp [hz])
  rw [State.finishWith_x]
  split
  · exact hv
  · exact h.operands r

end Sys2Proof.Machine
end

