-- ==== Sys2Proof/Laws/Step.lean ====
section
/-! SUPPORT. What one step can do, said once: `exec_effect` for the commands, `step_cons` and `step_nil` for the
script, and one lemma for each host access. Later proofs cite these and do not unfold `exec` or `step`. -/

namespace Sys2Proof.Machine

/-! ### Commands -/

/-- Everything one engine step of command `i` can do. -/
inductive ExecEffect (i : Instr) (s : State) : State → Prop where
  /-- A command error of its own (R173, R175). -/
  | raise (e : CmdError) (he : e ∈ errorsOf i) (hp : s.pending = none ∨ isMrtest i = false) :
      ExecEffect i s (s.raise e)
  /-- A result that fits (R101). -/
  | result (rd : RegNo) (v : Nat) (hd : destOf i = some rd)
      (hv : 1 ≤ s.nwords → (∀ r, s.x r < 2 ^ s.width) → v < 2 ^ s.width) : ExecEffect i s (s.finishWith rd v)
  /-- A verdict (R28). -/
  | verdict (b : Bool) (hd : destOf i = none) (hp : s.pending = none ∨ isMrtest i = false) :
      ExecEffect i s (s.finishVerdict b)
  /-- MRTEST with no step enabled: an answer is awaited (R73), or a state no run reaches. -/
  | wait (hm : isMrtest i = true) (hw : s.pending = none ∨ s.rngReply = none) : ExecEffect i s s
  /-- `issue` of R156. -/
  | issue (rm : RegNo) (iters : Nat) (hi : i = .mrtest rm iters) (hp : s.pending = none) (hn : 4 ≤ s.x rm)
      (hr : s.round < iters) : ExecEffect i s (s.issueRequest (s.x rm - 3))
  /-- `answer(v)` of R156. -/
  | answer (rm : RegNo) (iters v b : Nat) (hi : i = .mrtest rm iters) (hp : s.pending = some b)
      (hv : s.rngReply = some v) : ExecEffect i s (s.answerRound (s.x rm) v)

theorem lt_two_pow_of_lt_operand {s : State} {v m r} (h : v < m) (hm : m = s.x r)
    (hf : ∀ r, s.x r < 2 ^ s.width) : v < 2 ^ s.width := lt_trans (hm ▸ h) (hf r)

theorem one_lt_two_pow_width {s : State} (h : 1 ≤ s.nwords) : 1 < 2 ^ s.width :=
  Nat.one_lt_two_pow (by unfold State.width; omega)

theorem powModOf_lt {b e m : Nat} (hm : 0 < m) : powModOf b e m < m ∨ powModOf b e m = 1 := by
  rcases Nat.eq_zero_or_pos e with rfl | he
  · exact Or.inr (powModOf_zero b m)
  · rw [powModOf_pos _ _ _ he]; exact Or.inl (Nat.mod_lt _ hm)

theorem gcdOf_lt {a b k : Nat} (ha : a < k) (hb : b < k) : gcdOf a b < k := by
  rw [gcdOf_eq_gcd]
  rcases Nat.eq_zero_or_pos b with rfl | hpos
  · simpa using ha
  · exact lt_of_le_of_lt (Nat.gcd_le_right _ hpos) hb

/-- Every command answers a next state, and that state is one of the effects above. -/
theorem exec_effect (i : Instr) (s : State) : ∃ t, exec i s = .next t ∧ ExecEffect i s t := by
  cases i with
  | mulmod rd rs1 rs2 rm =>
    by_cases hm : s.x rm = 0
    · exact ⟨_, by simp [exec, execMulmod, hm], .raise .modulusZero (by simp [errorsOf]) (.inr rfl)⟩
    · exact ⟨s.finishWith rd (s.x rs1 * s.x rs2 % s.x rm), by simp [exec, execMulmod, hm], .result rd _ rfl fun _ hf =>
        lt_two_pow_of_lt_operand (Nat.mod_lt _ (Nat.pos_of_ne_zero hm)) rfl hf⟩
  | montmul rd rs1 rs2 rm =>
    by_cases hm : s.x rm = 0
    · exact ⟨_, by simp [exec, execMontmul, hm], .raise .modulusZero (by simp [errorsOf]) (.inr rfl)⟩
    · by_cases he : s.x rm % 2 = 0
      · exact ⟨_, by simp [exec, execMontmul, hm, he], .raise .modulusEven (by simp [errorsOf]) (.inr rfl)⟩
      · exact ⟨s.finishWith rd (montProduct s.width (s.x rs1) (s.x rs2) (s.x rm)),
          by simp only [exec, execMontmul, hm, he, if_false], .result rd _ rfl fun _ hf =>
          lt_two_pow_of_lt_operand (montProduct_lt (Nat.pos_of_ne_zero hm)) rfl hf⟩
  | montr2 rd rm =>
    by_cases hm : s.x rm = 0
    · exact ⟨_, by simp [exec, execMontr2, hm], .raise .modulusZero (by simp [errorsOf]) (.inr rfl)⟩
    · by_cases he : s.x rm % 2 = 0
      · exact ⟨_, by simp [exec, execMontr2, hm, he], .raise .modulusEven (by simp [errorsOf]) (.inr rfl)⟩
      · exact ⟨s.finishWith rd (radixSquare s.width (s.x rm)),
          by simp only [exec, execMontr2, hm, he, if_false], .result rd _ rfl fun _ hf =>
          lt_two_pow_of_lt_operand (radixSquare_lt (Nat.pos_of_ne_zero hm)) rfl hf⟩
  | powmod rd rs1 rs2 rm =>
    by_cases hm : s.x rm = 0
    · exact ⟨_, by simp [exec, execPowmod, hm], .raise .modulusZero (by simp [errorsOf]) (.inr rfl)⟩
    · refine ⟨s.finishWith rd (powModOf (s.x rs1) (s.x rs2) (s.x rm)),
        by simp only [exec, execPowmod, hm, if_false], .result rd _ rfl fun hw hf => ?_⟩
      rcases powModOf_lt (b := s.x rs1) (e := s.x rs2) (Nat.pos_of_ne_zero hm) with h | h
      · exact lt_two_pow_of_lt_operand h rfl hf
      · rw [h]; exact one_lt_two_pow_width hw
  | gcd rd rs1 rs2 =>
    exact ⟨_, rfl, .result rd _ rfl fun _ hf => gcdOf_lt (hf rs1) (hf rs2)⟩
  | modinv rd rs1 rm =>
    by_cases hm : s.x rm = 0
    · exact ⟨_, by simp [exec, execModinv, hm], .raise .modulusZero (by simp [errorsOf]) (.inr rfl)⟩
    · rcases hi : inverseOf (s.x rs1) (s.x rm) with _ | t
      · exact ⟨_, by simp [exec, execModinv, hm, hi], .raise .noInverse (by simp [errorsOf]) (.inr rfl)⟩
      · have ht := ((inverseOf_eq_some_iff (Nat.pos_of_ne_zero hm)).mp hi).2.1
        exact ⟨_, by simp [exec, execModinv, hm, hi], .result rd t rfl fun _ hf => lt_two_pow_of_lt_operand ht rfl hf⟩
  | lambda rd rs1 rs2 =>
    by_cases hr : s.x rs1 < 2 ∨ s.x rs2 < 2
    · exact ⟨_, by simp only [exec, execLambda, hr, if_true], .raise .operandRange (by simp [errorsOf]) (.inr rfl)⟩
    · by_cases ho : 2 ^ s.width ≤ carmichaelOf (s.x rs1) (s.x rs2)
      · exact ⟨_, by simp only [exec, execLambda, hr, ho, if_true, if_false],
          .raise .resultOverflow (by simp [errorsOf]) (.inr rfl)⟩
      · exact ⟨_, by simp only [exec, execLambda, hr, ho, if_false], .result rd _ rfl fun _ _ => not_le.mp ho⟩
  | mrround rs1 rm =>
    by_cases hr : s.x rm < 4 ∨ s.x rs1 < 2 ∨ s.x rm - 2 < s.x rs1
    · exact ⟨_, by simp only [exec, execMrround, hr, if_true], .raise .witnessRange (by simp [errorsOf]) (.inr rfl)⟩
    · exact ⟨s.finishVerdict (roundPasses (s.x rs1) (s.x rm)), by simp only [exec, execMrround, hr, if_false],
        .verdict _ rfl (.inr rfl)⟩
  | mrtest rm iters =>
    rcases hp : s.pending with _ | b
    · by_cases hn : s.x rm < 4
      · by_cases h0 : s.round = 0
        · exact ⟨s.finishVerdict (s.x rm = 2 ∨ s.x rm = 3), by simp [exec, execMrtest, hp, hn, h0],
            .verdict _ rfl (.inl hp)⟩
        · exact ⟨_, by simp [exec, execMrtest, hp, hn, h0], .wait rfl (.inl hp)⟩
      · by_cases he : s.round = iters
        · exact ⟨s.finishVerdict true, by simp [exec, execMrtest, hp, hn, he], .verdict _ rfl (.inl hp)⟩
        · by_cases hl : s.round < iters
          · exact ⟨_, by simp [exec, execMrtest, hp, hn, he, hl], .issue rm iters rfl hp (not_lt.mp hn) hl⟩
          · exact ⟨_, by simp [exec, execMrtest, hp, hn, he, hl], .wait rfl (.inl hp)⟩
    · rcases hv : s.rngReply with _ | v
      · exact ⟨_, by simp [exec, execMrtest, hp, hv], .wait rfl (.inr hv)⟩
      · exact ⟨_, by simp [exec, execMrtest, hp, hv], .answer rm iters v b rfl hp hv⟩

/-- What an answer does: the error of an answer out of range, a passed round, or the verdict composite. -/
theorem answerRound_cases (s : State) (n v : Nat) :
    n - 3 ≤ v ∧ s.answerRound n v = s.consumeReply.raise .witnessRange ∨
      v < n - 3 ∧ roundPasses (v + 2) n = true ∧ s.answerRound n v = s.consumeReply.nextRound ∨
      v < n - 3 ∧ roundPasses (v + 2) n = false ∧ s.answerRound n v = s.consumeReply.finishVerdict false := by
  unfold State.answerRound
  by_cases h : n - 3 ≤ v
  · simp [h]
  · rcases hb : roundPasses (v + 2) n with _ | _ <;> simp [h, not_le.mp h]

/-! ### Turns -/

theorem engineTurn_idle {s : State} (h : s.inflight = none) : engineTurn s = .next s := by
  simp [engineTurn, h]

theorem engineTurn_decoded {s : State} {f : Inflight} {i : Instr} (h : s.inflight = some f)
    (hd : decode f.word = .ok i) : engineTurn s = exec i s := by
  simp [engineTurn, h, hd]

theorem rngTurn_unasked {s : State} (v : Nat) (h : s.pending = none) : rngTurn v s = .next s := by
  simp [rngTurn, h]

theorem rngTurn_asked {s : State} {b : Nat} (v : Nat) (h : s.pending = some b) :
    rngTurn v s = engineTurn { s with rngReply := some v } := by
  simp [rngTurn, h]

theorem step_nil {s : State} (h : s.script = []) : step s = engineTurn s := by
  have hp : s.popEvent = s := by cases s; cases h; rfl
  simp [step, advance, State.nextEvent, h, perform, hp]

theorem step_cons {s : State} {e : Event} {rest : List Event} (h : s.script = e :: rest) :
    step s = perform e { s with script := rest } := by
  simp [step, advance, State.nextEvent, State.popEvent, h]

/-! ### Host accesses -/

/-- Everything a MemWrite can do. -/
theorem hostWrite_cases (s : State) (index : Nat) (d : Word) :
    index = 0 ∧ s.hostWrite index d = s.writeCmd d ∨
      index = 1 ∧ s.hostWrite index d = s.writeStatus d ∨
      index = 2 ∧ s.hostWrite index d = s.writeCtrl d ∨
      (∃ i j, locate s.nwords index = .operand i j ∧ s.hostWrite index d = s.writeOperand i j d) ∨
      (locate s.nwords index = .param ∨ locate s.nwords index = .reserved) ∧ s.hostWrite index d = s := by
  unfold State.hostWrite
  split
  · next h => exact .inl ⟨by unfold locate at h; split_ifs at h; assumption, rfl⟩
  · next h => exact .inr (.inl ⟨by unfold locate at h; split_ifs at h; assumption, rfl⟩)
  · next h => exact .inr (.inr (.inl ⟨by unfold locate at h; split_ifs at h; assumption, rfl⟩))
  · next h => exact .inr (.inr (.inr (.inr ⟨.inl h, rfl⟩)))
  · next i j h => exact .inr (.inr (.inr (.inl ⟨i, j, h, rfl⟩)))
  · next h => exact .inr (.inr (.inr (.inr ⟨.inr h, rfl⟩)))

/-- A CMD write is one of R30's three cases. -/
theorem writeCmd_cases (s : State) (w : Word) :
    s.ready = false ∧ s.writeCmd w = s.violate ∨
      s.ready = true ∧ (∃ r, decode w = .error r) ∧ s.writeCmd w = s.takeIllegal w ∨
      s.ready = true ∧ (∃ i, decode w = .ok i) ∧ s.writeCmd w = s.take w := by
  unfold State.writeCmd State.ready
  rcases hb : s.status.busy with _ | _ <;> rcases he : s.status.err with _ | _ <;>
    rcases hd : decode w with _ | _ <;> simp

/-- A CTRL write with bit 0 set is a soft reset; any other has no effect (R32). -/
theorem writeCtrl_cases (s : State) (d : Word) :
    d.getLsbD 0 = true ∧ s.writeCtrl d = s.softReset ∨ d.getLsbD 0 = false ∧ s.writeCtrl d = s := by
  unfold State.writeCtrl
  rcases h : d.getLsbD 0 with _ | _ <;> simp

/-- A window write is dropped while BUSY = 1 and else replaces one word (R56). -/
theorem writeOperand_cases (s : State) (i : RegNo) (j : Nat) (d : Word) :
    s.status.busy = true ∧ s.writeOperand i j d = s.violate ∨
      s.status.busy = false ∧ s.writeOperand i j d = s.setX i (replaceWord (s.x i) j d) := by
  unfold State.writeOperand
  rcases h : s.status.busy with _ | _ <;> simp

/-- Everything a MemRead can do: it changes the port's word, and HVIOL in the closed window (R56, R57). -/
theorem hostRead_cases (s : State) (index : Nat) :
    (∃ i j, locate s.nwords index = .operand i j) ∧ s.status.busy = true ∧
        s.hostRead index = { s.violate with readData := 0x00000000 } ∨
      s.hostRead index = { s with readData := s.peekWord index } := by
  unfold State.hostRead inWindow
  rcases hl : locate s.nwords index with _ | _ | _ | _ | ⟨i, j⟩ | _ <;>
    rcases hb : s.status.busy with _ | _ <;> simp

/-! ### The whole step -/

/-- Everything a step can do to `s`, whose script has lost its first event, when that event is `e`. -/
inductive StepEffect (s : State) : Event → State → Prop where
  /-- The engine has nothing in flight (R187). -/
  | idle (h : s.inflight = none) : StepEffect s .engine s
  /-- The command in flight takes its own step (R36). -/
  | command (f : Inflight) (i : Instr) (t : State) (hf : s.inflight = some f) (hd : decode f.word = .ok i)
      (he : ExecEffect i s t) : StepEffect s .engine t
  /-- An answer nobody asked for is discarded (R192). -/
  | unasked (v : Nat) (h : s.pending = none) : StepEffect s (.rngAnswer v) s
  /-- The command in flight takes the collaborator's answer (R156). -/
  | answered (v b : Nat) (f : Inflight) (i : Instr) (t : State) (hf : s.inflight = some f)
      (hd : decode f.word = .ok i) (hp : s.pending = some b)
      (he : ExecEffect i { s with rngReply := some v } t) : StepEffect s (.rngAnswer v) t
  /-- A read in the closed window (R29). -/
  | closedRead (index : Nat) (i : RegNo) (j : Nat) (hl : locate s.nwords index = .operand i j)
      (hb : s.status.busy = true) :
      StepEffect s (.hostRead index) { s.violate with readData := 0x00000000 }
  /-- Any other read (R57). -/
  | read (index : Nat) : StepEffect s (.hostRead index) { s with readData := s.peekWord index }
  /-- A CMD write that is not taken (R30). -/
  | cmdDropped (w : Word) (h : s.ready = false) : StepEffect s (.hostWrite 0 w) s.violate
  /-- An illegal word is taken (R30). -/
  | cmdIllegal (w : Word) (r : Illegal) (h : s.ready = true) (hd : decode w = .error r) :
      StepEffect s (.hostWrite 0 w) (s.takeIllegal w)
  /-- A command is taken (R30). -/
  | cmdTaken (w : Word) (i : Instr) (h : s.ready = true) (hd : decode w = .ok i) :
      StepEffect s (.hostWrite 0 w) (s.take w)
  /-- A STATUS write (R33). -/
  | statusWrite (d : Word) : StepEffect s (.hostWrite 1 d) (s.writeStatus d)
  /-- The soft reset (R32). -/
  | softReset (d : Word) (hd : d.getLsbD 0 = true) : StepEffect s (.hostWrite 2 d) s.softReset
  /-- A CTRL write without it (R32). -/
  | ctrlIgnored (d : Word) (hd : d.getLsbD 0 = false) : StepEffect s (.hostWrite 2 d) s
  /-- A write in the closed window (R29). -/
  | closedWrite (index : Nat) (d : Word) (i : RegNo) (j : Nat) (hl : locate s.nwords index = .operand i j)
      (hb : s.status.busy = true) : StepEffect s (.hostWrite index d) s.violate
  /-- A write in the open window (R56). -/
  | openWrite (index : Nat) (d : Word) (i : RegNo) (j : Nat) (hl : locate s.nwords index = .operand i j)
      (hb : s.status.busy = false) :
      StepEffect s (.hostWrite index d) (s.setX i (replaceWord (s.x i) j d))
  /-- A write to PARAM or to a reserved address (R31, R53). -/
  | ignoredWrite (index : Nat) (d : Word) (hl : locate s.nwords index = .param ∨ locate s.nwords index = .reserved) :
      StepEffect s (.hostWrite index d) s
  /-- The hard reset (R190). -/
  | hardReset : StepEffect s .hardReset s.hardReset

theorem engineTurn_cases {s t : State} (h : engineTurn s = .next t) :
    s.inflight = none ∧ t = s ∨
      ∃ f i, s.inflight = some f ∧ decode f.word = .ok i ∧ ExecEffect i s t := by
  unfold engineTurn at h
  split at h
  · next hn => cases h; exact .inl ⟨hn, rfl⟩
  · next f hf =>
    split at h
    · next i hd =>
      obtain ⟨u, hu, he⟩ := exec_effect i s
      rw [hu] at h; cases h
      exact .inr ⟨f, i, hf, hd, he⟩
    · cases h

/-- The effect of an event that answers a next state. -/
theorem perform_effect {e : Event} {s t : State} (h : perform e s = .next t) : StepEffect s e t := by
  cases e with
  | hostRead index =>
    cases h
    rcases hostRead_cases s index with ⟨⟨i, j, hl⟩, hb, e⟩ | e <;> rw [e]
    · exact .closedRead index i j hl hb
    · exact .read index
  | hostWrite index d =>
    cases h
    rcases hostWrite_cases s index d with ⟨rfl, e⟩ | ⟨rfl, e⟩ | ⟨rfl, e⟩ | ⟨i, j, hl, e⟩ | ⟨hl, e⟩ <;> rw [e]
    · rcases writeCmd_cases s d with ⟨hr, e⟩ | ⟨hr, ⟨r, hd⟩, e⟩ | ⟨hr, ⟨i, hd⟩, e⟩ <;> rw [e]
      · exact .cmdDropped d hr
      · exact .cmdIllegal d r hr hd
      · exact .cmdTaken d i hr hd
    · exact .statusWrite d
    · rcases writeCtrl_cases s d with ⟨hd, e⟩ | ⟨hd, e⟩ <;> rw [e]
      · exact .softReset d hd
      · exact .ctrlIgnored d hd
    · rcases writeOperand_cases s i j d with ⟨hb, e⟩ | ⟨hb, e⟩ <;> rw [e]
      · exact .closedWrite index d i j hl hb
      · exact .openWrite index d i j hl hb
    · exact .ignoredWrite index d hl
  | engine =>
    rcases engineTurn_cases h with ⟨hn, rfl⟩ | ⟨f, i, hf, hd, he⟩
    · exact .idle hn
    · exact .command f i t hf hd he
  | rngAnswer v =>
    simp only [perform] at h
    rcases hp : s.pending with _ | b
    · rw [rngTurn_unasked v hp] at h; cases h; exact .unasked v hp
    · rw [rngTurn_asked v hp] at h
      rcases engineTurn_cases h with ⟨hn, rfl⟩ | ⟨f, i, hf, hd, he⟩
      · rw [State.pending_of_idle (s := s) hn] at hp; cases hp
      · exact .answered v b f i t hf hd hp he
  | hardReset => cases h; exact .hardReset

/-- The effect of a step: that of the next event, on the state without it. -/
theorem step_effect {s t : State} (h : step s = .next t) : StepEffect s.popEvent s.nextEvent t := perform_effect h

/-- A step answers a next state unless the in-flight word does not decode. -/
theorem step_next_of_decodes {s : State} (h : ∀ f, s.inflight = some f → ∃ i, decode f.word = .ok i) :
    ∃ t, step s = .next t := by
  have hturn : ∀ u : State, u.inflight = s.inflight → ∃ t, engineTurn u = .next t := fun u hu => by
    rcases hf : s.inflight with _ | f
    · exact ⟨u, engineTurn_idle (hu.trans hf)⟩
    · obtain ⟨i, hd⟩ := h f hf
      obtain ⟨t, ht, -⟩ := exec_effect i u
      exact ⟨t, (engineTurn_decoded (hu.trans hf) hd).trans ht⟩
  unfold step advance
  cases s.nextEvent with
  | hostRead index => exact ⟨_, rfl⟩
  | hostWrite index d => exact ⟨_, rfl⟩
  | engine => exact hturn _ rfl
  | rngAnswer v =>
    simp only [perform]
    rcases hp : s.popEvent.pending with _ | b
    · exact ⟨_, rngTurn_unasked v hp⟩
    · rw [rngTurn_asked v hp]; exact hturn _ rfl
  | hardReset => exact ⟨_, rfl⟩

end Sys2Proof.Machine
end

