-- ==== Sys2Proof/Tests/Slice0.lean ====
section
/-! SUPPORT. Tests and witnesses. Every expected value of a test is one of the spec's own vectors (95_test_vectors.md),
named beside it. A witness shows that the hypotheses of a statement can be met together, clause by clause, at the ends
of their ranges. -/

namespace Sys2Proof.Tests
open Sys2Proof.Machine

/-! ### States to test on -/

/-- An idle unit of this width whose operand registers hold these values. -/
def unit (nwords : Nat) (loads : List (RegNo × Nat)) : State :=
  loads.foldl (fun s p => s.setX p.1 p.2) (State.resetFor nwords)

/-- The state with this word in flight. -/
def flying (s : State) (w : Word) (round : Nat) (pending : Option Nat) : State :=
  { s.take w with inflight := some { word := w, round := round, pending := pending } }

/-- The state with these events to come. -/
def queued (s : State) (es : List Event) : State := { s with script := es }

/-- The state with this STATUS. -/
def flagged (s : State) (f : Status) : State := { s with status := f }

/-- What an outcome leaves in one register and in STATUS. -/
def seen (r : RegNo) (o : Host.Outcome State Fault Refusal) : Option (Nat × Word) :=
  match o with
  | .next t => some (t.x r, t.status.toWord)
  | .fault _ => none
  | .refused _ => none

/-- What an outcome leaves in the port's read data, STATUS and CMD. -/
def ports (o : Host.Outcome State Fault Refusal) : Option (Word × Word × Word) :=
  match o with
  | .next t => some (t.readData, t.status.toWord, t.lastCmd)
  | .fault _ => none
  | .refused _ => none

/-- The request an outcome leaves outstanding, with the rounds passed. -/
def asked (o : Host.Outcome State Fault Refusal) : Option (Nat × Option Nat) :=
  match o with
  | .next t => some (t.round, t.pending)
  | .fault _ => none
  | .refused _ => none

/-- One step that runs this command word. -/
def ran (s : State) (w : Nat) : Host.Outcome State Fault Refusal := step (s.withFetchWord 32 w)

/-- One step that performs this event. -/
def did (s : State) (e : Event) : Host.Outcome State Fault Refusal := step (queued s [e])

/-! ### Well-formedness: its one check -/

theorem test_mrtest_iters_too_large : (Instr.mrtest 0 256).wellFormed = false := by decide
theorem test_mrtest_iters_largest : (Instr.mrtest 15 255).wellFormed = true := by decide

/-! ### Decoding (V-DEC) -/

theorem test_decode_mulmod :
    decode 0x01211000 = .ok (.mulmod 2 1 1 0) ∧ decode 0x01FEDC00 = .ok (.mulmod 15 14 13 12) := ⟨rfl, rfl⟩
theorem test_decode_montmul : decode 0x02534000 = .ok (.montmul 5 3 4 0) := rfl
theorem test_decode_montr2 :
    decode 0x03200000 = .ok (.montr2 2 0) ∧ decode 0x03F00F00 = .ok (.montr2 15 15) := ⟨rfl, rfl⟩
theorem test_decode_powmod : decode 0x04874000 = .ok (.powmod 8 7 4 0) := rfl
theorem test_decode_gcd : decode 0x05543000 = .ok (.gcd 5 4 3) := rfl
theorem test_decode_modinv : decode 0x06640300 = .ok (.modinv 6 4 3) := rfl
theorem test_decode_lambda : decode 0x07312000 = .ok (.lambda 3 1 2) := rfl
theorem test_decode_mrround : decode 0x08010000 = .ok (.mrround 1 0) := rfl
theorem test_decode_mrtest :
    decode 0x09000032 = .ok (.mrtest 0 50) ∧ decode 0x09000FFF = .ok (.mrtest 15 255) ∧
      decode 0x09000000 = .ok (.mrtest 0 0) := ⟨rfl, rfl, rfl⟩

/-- V-DEC-14 to V-DEC-26. -/
theorem test_decode_illegal :
    ([0x00000000, 0xFFFFFFFF, 0x0A000000, 0x01211001, 0x03210000, 0x03201000, 0x05543300, 0x06641300, 0x07312001,
      0x08110000, 0x08010001, 0x09100003, 0x09011003] : List Nat).all (fun w => (decodeTableWord 32 w).isNone) = true := by
  decide

/-! ### Results -/

/-- V-MUL-1. -/
theorem test_mulmod_large_operands :
    seen 3 (ran (unit 1 [(1, 1234567), (2, 7654321), (0, 3233), (3, 9)]) 0x01312000) = some (728, 0x00000002) := by decide

/-- V-MUL-7: the destination is the modulus register. -/
theorem test_mulmod_destination_is_modulus :
    seen 0 (ran (unit 1 [(1, 7), (0, 10)]) 0x01011000) = some (9, 0x00000002) := by decide

/-- V-MONT-11: the radix is `2^64` at W = 64. -/
theorem test_montmul_two_words :
    seen 3 (ran (unit 2 [(1, 65), (2, 2790), (0, 3233)]) 0x02312000) = some (2497, 0x00000002) := by decide

/-- V-MONT-6: ModulusZero comes before ModulusEven. -/
theorem test_montmul_modulus_zero :
    seen 3 (ran (unit 1 [(1, 7), (2, 9), (3, 4)]) 0x02312000) = some (4, 0x00000206) := by decide

/-- V-R2-1. -/
theorem test_montr2 : seen 2 (ran (unit 1 [(0, 3233), (2, 99)]) 0x03200000) = some (2029, 0x00000002) := by decide

/-- V-R2-8. -/
theorem test_montr2_modulus_even :
    seen 2 (ran (unit 1 [(0, 6), (2, 99)]) 0x03200000) = some (99, 0x00000306) := by decide

/-- V-POW-1. -/
theorem test_powmod : seen 3 (ran (unit 1 [(1, 65), (2, 17), (0, 3233)]) 0x04312000) = some (2790, 0x00000002) := by decide

/-- V-POW-5: exponent 0 at modulus 1 gives 1. -/
theorem test_powmod_exponent_zero_modulus_one :
    seen 3 (ran (unit 1 [(1, 123), (0, 1)]) 0x04312000) = some (1, 0x00000002) := by decide

/-- V-GCD-8. -/
theorem test_gcd : seen 3 (ran (unit 1 [(1, 1071), (2, 462)]) 0x05312000) = some (21, 0x00000002) := by decide

/-- V-GCD-3. -/
theorem test_gcd_with_zero : seen 3 (ran (unit 1 [(1, 9), (2, 0)]) 0x05312000) = some (9, 0x00000002) := by decide

/-- V-INV-4: the operand may exceed the modulus. -/
theorem test_modinv : seen 3 (ran (unit 1 [(1, 797), (0, 780)]) 0x06310000) = some (413, 0x00000002) := by decide

/-- V-INV-2: the destination is kept. -/
theorem test_modinv_no_inverse :
    seen 3 (ran (unit 1 [(1, 4), (0, 8), (3, 85)]) 0x06310000) = some (85, 0x00000406) := by decide

/-- V-LAM-7: the product does not fit, the quotient does. -/
theorem test_lambda_wide_product :
    seen 3 (ran (unit 1 [(1, 65537), (2, 65537)]) 0x07312000) = some (65536, 0x00000002) := by decide

/-- V-LAM-14. -/
theorem test_lambda_overflow :
    seen 3 (ran (unit 1 [(1, 4294967291), (2, 4294967279), (3, 85)]) 0x07312000) = some (85, 0x00000606) := by decide

/-- V-MR-3: three squarings, then composite. -/
theorem test_mrround_composite :
    seen 0 (ran (unit 1 [(1, 2), (0, 561)]) 0x08010000) = some (561, 0x00000002) := by decide

/-- V-MR-19: a strong liar passes after one squaring. -/
theorem test_mrround_liar : seen 0 (ran (unit 1 [(1, 7), (0, 25)]) 0x08010000) = some (25, 0x0000000A) := by decide

/-- V-MT-4, its second step: the liar 50 passes and the round is counted. -/
theorem test_mrtest_passed_round :
    asked (did (flying (unit 1 [(0, 561)]) 0x09000003 0 (some 558)) (.rngAnswer 48)) = some (1, none) := by decide

/-- V-MT-17: the answer is the bound. -/
theorem test_mrtest_answer_out_of_range :
    seen 0 (did (flying (unit 1 [(0, 7919)]) 0x09000001 0 (some 7916)) (.rngAnswer 7916)) = some (7919, 0x00000706) := by
  decide

/-- V-MT-4, V-MT-5, V-MT-17 as the function of R157. -/
theorem test_mrtest_outcomes :
    mrTestOutcome 561 3 [48, 0] = some (.composite, 2) ∧ mrTestOutcome 561 3 [48, 99, 101] = some (.prime, 3) ∧
      mrTestOutcome 7919 1 [7916] = some (.witnessRange, 1) := by decide

/-! ### Host protocol (V-H) -/

/-- V-H-1, V-H-2. -/
theorem test_param : (unit 1 []).peekWord 3 = 0x01100001 ∧ (unit 64 []).peekWord 3 = 0x01100040 := by decide

/-- V-H-4: the window is closed while a command is in flight. -/
theorem test_closed_window :
    ports (did (flying (unit 1 [(3, 5)]) 0x04312000 0 none) (.hostRead (0x100C / 4))) = some (0, 0x00000011, 0x04312000) := by
  decide

/-- V-H-7: only bits 2 and 4 of the written word act. -/
theorem test_status_write :
    ports (did (flagged (unit 1 []) ⟨false, true, true, false, true, 0x04⟩) (.hostWrite 1 0xFFFFFFEB))
        = some (0, 0x00000416, 0) ∧
      ports (did (flagged (unit 1 []) ⟨false, true, true, false, true, 0x04⟩) (.hostWrite 1 0x00000010))
        = some (0, 0x00000406, 0) ∧
      ports (did (flagged (unit 1 []) ⟨false, true, true, false, false, 0x04⟩) (.hostWrite 1 0x00000004))
        = some (0, 0x00000002, 0) := by decide

/-- V-H-8: a word write leaves the other word. -/
theorem test_window_word_write :
    seen 1 (did (unit 2 [(1, 0xAAAAAAAABBBBBBBB)]) (.hostWrite (0x1008 / 4) 0x00000005))
      = some (0xAAAAAAAA00000005, 0x00000000) := by decide

/-- V-H-10: the first address above the window is reserved. -/
theorem test_above_the_window :
    ports (did (unit 1 [(15, 7)]) (.hostRead (0x1040 / 4))) = some (0, 0x00000000, 0) := by decide

/-- V-H-12: a soft reset abandons a waiting MRTEST and keeps the operands. -/
theorem test_soft_reset :
    seen 3 (did (flying (unit 1 [(0, 7919), (3, 5)]) 0x09000005 0 (some 7916)) srstEvent) = some (5, 0x00000000) := by
  decide

/-- V-H-17, V-H-18: an illegal word is taken and ends at once; the next command is dropped. -/
theorem test_illegal_word :
    ports (did (flagged (unit 1 []) ⟨false, true, false, false, false, 0x00⟩) (.hostWrite 0 0x0A000000))
        = some (0, 0x00000106, 0x0A000000) ∧
      ports (did (flagged (unit 1 []) ⟨false, true, true, false, false, 0x01⟩) (.hostWrite 0 0x05312000))
        = some (0, 0x00000116, 0) := by decide

/-! ### Witnesses: encoding -/

theorem witness_EncodeFollowsWordFormula : 0 < 256 ∧ 255 < 256 := by decide
theorem witness_DecodeOfEncode : (Instr.mrtest 15 255).wellFormed = true ∧ (Instr.mulmod 0 0 0 0).wellFormed = true := by
  decide
theorem witness_EncodeOfDecode : decode 0x09000FFF = .ok (.mrtest 15 255) ∧ decode 0x05000000 = .ok (.gcd 0 0 0) :=
  ⟨rfl, rfl⟩

theorem witness_DecodedOperandsAreTheFields : decode 0x01FEDC00 = .ok (.mulmod 15 14 13 12) := rfl

/-- One word at the edge of each line of R86, and the state of its last clause. -/
theorem witness_IllegalWordsAndTheirError :
    ([0x00FFFFFF, 0x0A000000, 0x01000001, 0x02000080, 0x04FFFFFF, 0x03080000, 0x03001000, 0x03000001, 0x05000001,
      0x07000800, 0x06001000, 0x06000001, 0x08100000, 0x08008000, 0x08000080, 0x09001000, 0x09800000] : List Nat).all
        (fun w => (decodeTableWord 32 w).isNone) = true ∧
      ∃ (s : State) (w : Word) (r : Illegal) (rest : List Event),
        s.status.busy = false ∧ s.status.err = false ∧ decode w = .error r ∧ s.script = .hostWrite 0 w :: rest :=
  ⟨by decide, queued (unit 1 []) [.hostWrite 0 0x01211001], 0x01211001, _, _, rfl, rfl, rfl, rfl⟩

/-! ### Witnesses: resets and the host port -/

theorem witness_ResetsLeaveTheStateOfTheTable :
    (∃ s t : State, s.script = .hardReset :: [] ∧ step s = .next t) ∧
      ∃ s t : State, s.script = .hostWrite 2 0x00000001 :: [] ∧ step s = .next t :=
  ⟨⟨queued (flying (unit 1 []) 0x05312000 0 none) [.hardReset], _, rfl, rfl⟩,
    ⟨queued (flying (unit 1 []) 0x05312000 0 none) [srstEvent], _, rfl, rfl⟩⟩

theorem witness_CtrlWriteIsSoftReset :
    (∃ (s : State) (d : Word), s.script = .hostWrite 2 d :: [] ∧ d.getLsbD 0 = true ∧ s.status.busy = true) ∧
      (∃ (s : State) (d : Word), s.script = .hostWrite 2 d :: [] ∧ d.getLsbD 0 = false) ∧
      ∃ s : State, s.script = .hostRead 2 :: [] :=
  ⟨⟨queued (flying (unit 1 []) 0x05312000 0 none) [srstEvent], 1, rfl, rfl, rfl⟩,
    ⟨queued (unit 1 []) [.hostWrite 2 0xFFFFFFFE], _, rfl, rfl⟩, ⟨queued (unit 1 []) [.hostRead 2], rfl⟩⟩

theorem witness_LateAnswerIsDiscarded :
    ∃ (s t : State) (d : Word) (v : Nat), d.getLsbD 0 = true ∧ s.pending ≠ none ∧
      s.script = .hostWrite 2 d :: .rngAnswer v :: .engine :: [] ∧ step s = .next t :=
  ⟨queued (flying (unit 1 [(0, 7919)]) 0x09000005 0 (some 7916)) [srstEvent, .rngAnswer 3, .engine], _, 1, 3,
    rfl, by decide, rfl, rfl⟩

/-- The narrowest and the widest unit; the first and last reserved index below the window; the last word of the
window. -/
theorem witness_AddressMap :
    (1 ≤ 1 ∧ 1 ≤ 65535) ∧ (0x0010 / 4 ≤ 4 ∧ 4 ≤ 0x0FFC / 4) ∧ (0x0010 / 4 ≤ 1023 ∧ 1023 ≤ 0x0FFC / 4) ∧
      locate 1 4 = .reserved ∧ locate 1 1023 = .reserved ∧ locate 1 1024 = .operand 0 0 ∧
      locate 1 1039 = .operand 15 0 ∧ locate 1 1040 = .reserved ∧ locate 65535 (1024 + 16 * 65535) = .reserved ∧
      locate 65535 (1024 + 16 * 65535 - 1) = .operand 15 65534 := by decide

theorem witness_StatusReadsItsFields : ∃ s : State, s.script = .hostRead 1 :: [] ∧ s.status.ecode = 0xFF :=
  ⟨queued (flagged (unit 1 []) ⟨true, true, true, true, true, 0xFF⟩) [statusRead], rfl, rfl⟩

theorem witness_CmdWriteDoesOneOfThree :
    (∃ s : State, s.script = .hostRead 0 :: []) ∧
      (∃ (s : State) (w : Word), s.script = .hostWrite 0 w :: [] ∧ s.status.busy = true) ∧
      (∃ (s : State) (w : Word), s.script = .hostWrite 0 w :: [] ∧ s.status.err = true) ∧
      (∃ (s : State) (w : Word) (r : Illegal),
        s.script = .hostWrite 0 w :: [] ∧ s.status.busy = false ∧ s.status.err = false ∧ decode w = .error r) ∧
      ∃ (s : State) (w : Word) (i : Instr),
        s.script = .hostWrite 0 w :: [] ∧ s.status.busy = false ∧ s.status.err = false ∧ decode w = .ok i :=
  ⟨⟨queued (unit 1 []) [.hostRead 0], rfl⟩,
    ⟨queued (flying (unit 1 []) 0x05312000 0 none) [.hostWrite 0 0], _, rfl, rfl⟩,
    ⟨queued (flagged (unit 1 []) ⟨false, true, true, false, false, 0x02⟩) [.hostWrite 0 0], _, rfl, rfl⟩,
    ⟨queued (unit 1 []) [.hostWrite 0 0x0A000000], _, _, rfl, rfl, rfl, rfl⟩,
    ⟨queued (unit 1 []) [.hostWrite 0 0x05312000], _, _, rfl, rfl, rfl, rfl⟩⟩

theorem witness_StatusWriteOneToClear : ∃ (s : State) (d : Word), s.script = .hostWrite 1 d :: [] ∧ s.status.err = true :=
  ⟨queued (flagged (unit 1 []) ⟨false, true, true, false, true, 0x04⟩) [.hostWrite 1 0x14], _, rfl, rfl⟩

theorem witness_ParamIsConstant :
    (∃ s : State, 1 ≤ s.nwords ∧ s.nwords ≤ 65535 ∧ s.nwords = 65535 ∧ s.script = .hostRead 3 :: []) ∧
      (∃ s : State, 1 ≤ s.nwords ∧ s.nwords ≤ 65535 ∧ s.nwords = 1 ∧ s.script = .hostRead 3 :: []) ∧
      (∃ (s : State) (d : Word), s.script = .hostWrite 3 d :: []) ∧
      (∃ s : State, s.nwords = 64) ∧ ∃ s t : State, step s = .next t :=
  ⟨⟨queued (unit 65535 []) [.hostRead 3], by decide, by decide, rfl, rfl⟩,
    ⟨queued (unit 1 []) [.hostRead 3], by decide, by decide, rfl, rfl⟩,
    ⟨queued (unit 1 []) [.hostWrite 3 0xFFFFFFFF], _, rfl⟩, ⟨unit 64 [], rfl⟩, unit 1 [], _, rfl⟩

theorem witness_ReservedAddressesReadZero :
    (∃ (s : State) (index : Nat), 0x0010 / 4 ≤ index ∧ index ≤ 0x0FFC / 4 ∧ index = 1023 ∧ s.script = .hostRead index :: []) ∧
      ∃ (s : State) (index : Nat) (d : Word), (0x1000 + 64 * s.nwords) / 4 ≤ index ∧ index = 1040 ∧
        s.script = .hostWrite index d :: [] :=
  ⟨⟨queued (unit 1 []) [.hostRead 1023], 1023, by decide, by decide, rfl, rfl⟩,
    ⟨queued (unit 1 []) [.hostWrite 1040 7], 1040, 7, by decide, rfl, rfl⟩⟩

/-- The last word of the last register, read and written, in the closed and in the open window. -/
theorem witness_OperandWindowReadsAndWrites :
    ∀ busy : Bool, ∃ (s r : State) (d : Word), s.nwords = 2 ∧ s.status.busy = busy ∧ r.nwords = 2 ∧
      r.status.busy = busy ∧ s.script = .hostRead ((0x1000 + 4 * (15 * 2 + 1)) / 4) :: [] ∧
      r.script = .hostWrite ((0x1000 + 4 * (15 * 2 + 1)) / 4) d :: [] := fun busy =>
  ⟨queued (flagged (unit 2 []) { Status.clear with busy := busy }) [.hostRead ((0x1000 + 4 * (15 * 2 + 1)) / 4)],
    queued (flagged (unit 2 []) { Status.clear with busy := busy }) [.hostWrite ((0x1000 + 4 * (15 * 2 + 1)) / 4) 7], 7,
    rfl, rfl, rfl, rfl, rfl, rfl⟩

theorem witness_LittleEndianWordsAndBytes :
    (∃ (s : State) (i : RegNo), s.x i < 2 ^ (32 * s.nwords) ∧ s.x i = 2 ^ 64 - 1) ∧ (3 < 4 ∧ 7 < 8) :=
  ⟨⟨unit 2 [(15, 2 ^ 64 - 1)], 15, by decide, by decide⟩, by decide⟩

theorem witness_HviolSetExactlyByIgnoredAccesses :
    (∃ s t : State, step s = .next t ∧ s.status.hviol = false ∧ t.status.hviol = true ∧ s.nextEvent = .hostWrite 0 0) ∧
      (∃ s t : State, step s = .next t ∧ s.status.hviol = false ∧ t.status.hviol = true ∧
        s.nextEvent = .hostRead 1039) ∧
      (∃ s t : State, step s = .next t ∧ s.status.hviol = true ∧ t.status.hviol = false) ∧
      ∃ (s : State) (d w : Word), 0 < s.nwords ∧ s.status.busy = true ∧
        s.script = .hostWrite (windowIndex s.nwords 0 0) d :: .hostWrite 0 w :: [] :=
  ⟨⟨queued (flagged (unit 1 []) ⟨false, true, true, false, false, 0x02⟩) [.hostWrite 0 0], _, rfl, rfl, rfl, rfl⟩,
    ⟨queued (flying (unit 1 []) 0x05312000 0 none) [.hostRead 1039], _, rfl, rfl, rfl, rfl⟩,
    ⟨queued (flagged (unit 1 []) ⟨false, true, false, false, true, 0x00⟩) [ackvEvent], _, rfl, rfl, rfl⟩,
    ⟨queued (flying (unit 1 []) 0x05312000 0 none) [.hostWrite 1024 7, .hostWrite 0 0], 7, 0, by decide, rfl, rfl⟩⟩

theorem witness_HviolBlocksNothing : ∃ s t : State, step s = .next t ∧ s.nextEvent ≠ .hostRead 1 ∧ s.status.hviol = true :=
  ⟨queued (flagged (unit 1 []) ⟨false, true, false, false, true, 0x00⟩) [.hostWrite 0 0x05312000], _, rfl, by decide, rfl⟩

theorem witness_LoadSetsTheRegister :
    ∃ (s : State) (v : Nat), s.status.busy = false ∧ s.x 15 < 2 ^ (32 * s.nwords) ∧ v < 2 ^ (32 * s.nwords) ∧
      v = 2 ^ 64 - 1 ∧ s.script = loadEvents s.nwords 15 v ++ [] :=
  ⟨queued (unit 2 []) (loadEvents 2 15 (2 ^ 64 - 1) ++ []), 2 ^ 64 - 1, rfl, by decide, by decide, rfl, rfl⟩

/-! ### Witnesses: running a command -/

theorem witness_StepRunsTheDecodedCommand :
    (∃ (s : State) (f : Inflight) (i : Instr), s.inflight = some f ∧ decode f.word = .ok i ∧ s.script = .engine :: []) ∧
      (∃ (s : State) (f : Inflight) (i : Instr), s.inflight = some f ∧ decode f.word = .ok i ∧ s.script = []) ∧
      ∃ (s : State) (f : Inflight) (i : Instr) (b v : Nat), s.inflight = some f ∧ decode f.word = .ok i ∧
        f.pending = some b ∧ s.script = .rngAnswer v :: [] :=
  ⟨⟨queued (flying (unit 1 []) 0x05312000 0 none) [.engine], _, _, rfl, rfl, rfl⟩,
    ⟨flying (unit 1 []) 0x05312000 0 none, _, _, rfl, rfl, rfl⟩,
    ⟨queued (flying (unit 1 [(0, 5)]) 0x09000001 0 (some 2)) [.rngAnswer 0], _, _, 2, 0, rfl, rfl, rfl, rfl⟩⟩

theorem witness_FetchedWordIsRunNext : decodeTableWord 32 0x09000FFF = some (.mrtest 15 255) := rfl

theorem witness_IssuedCommandIsExecuted :
    ∃ (s : State) (i : Instr), i.wellFormed = true ∧ s.status.busy = false ∧ s.status.err = false ∧
      s.script = issueEvent i :: .engine :: [] :=
  ⟨queued (unit 1 []) [issueEvent (.mrtest 0 255), .engine], .mrtest 0 255, rfl, rfl, rfl, rfl⟩

/-! ### Witnesses: results -/

theorem witness_MulmodResult : (unit 1 [(0, 1)]).x 0 ≠ 0 ∧ (unit 1 []).x 0 = 0 := by decide

/-- The smallest odd modulus, whose `Rinv` is 0, and 3, whose `Rinv` is 1; modulus 0; the smallest even one. -/
theorem witness_MontmulResult :
    ((unit 1 [(0, 1)]).x 0 % 2 = 1 ∧ 0 < (unit 1 [(0, 1)]).x 0 ∧ 2 ^ 32 * 0 % 1 = 1 % 1) ∧
      ((unit 1 [(0, 3)]).x 0 % 2 = 1 ∧ 1 < (unit 1 [(0, 3)]).x 0 ∧ 2 ^ 32 * 1 % 3 = 1 % 3) ∧ (unit 1 []).x 0 = 0 ∧
      (unit 1 [(0, 2)]).x 0 ≠ 0 ∧ (unit 1 [(0, 2)]).x 0 % 2 = 0 := by decide

theorem witness_Montr2Result :
    (unit 1 [(0, 1)]).x 0 % 2 = 1 ∧ (unit 1 []).x 0 = 0 ∧ (unit 1 [(0, 2)]).x 0 ≠ 0 ∧ (unit 1 [(0, 2)]).x 0 % 2 = 0 := by
  decide

theorem witness_PowmodResult :
    (unit 1 []).x 0 = 0 ∧ ((unit 1 [(0, 1)]).x 0 ≠ 0 ∧ (unit 1 [(0, 1)]).x 2 = 0) ∧
      (unit 1 [(0, 1), (2, 1)]).x 0 ≠ 0 ∧ (unit 1 [(0, 1), (2, 1)]).x 2 ≠ 0 := by decide

theorem witness_ModinvResult :
    (unit 1 []).x 0 = 0 ∧ ((unit 1 [(0, 2)]).x 0 ≠ 0 ∧ Nat.gcd ((unit 1 [(0, 2)]).x 1) ((unit 1 [(0, 2)]).x 0) ≠ 1) ∧
      (unit 1 [(0, 1)]).x 0 ≠ 0 ∧ Nat.gcd ((unit 1 [(0, 1)]).x 1) ((unit 1 [(0, 1)]).x 0) = 1 := by decide

/-- One operand below 2; the smallest operands; the overflow of V-LAM-14. -/
theorem witness_LambdaResult :
    ((unit 1 [(1, 1), (2, 2)]).x 1 < 2) ∧ (2 ≤ (unit 1 [(1, 2), (2, 2)]).x 1 ∧ 2 ≤ (unit 1 [(1, 2), (2, 2)]).x 2 ∧
      (2 - 1) * (2 - 1) / Nat.gcd (2 - 1) (2 - 1) < 2 ^ 32) ∧
      2 ^ 32 ≤ (4294967291 - 1) * (4294967279 - 1) / Nat.gcd (4294967291 - 1) (4294967279 - 1) := by decide

theorem witness_LambdaOfAFittingModulusCompletes :
    ∃ s : State, 2 ≤ s.x 1 ∧ 2 ≤ s.x 2 ∧ s.x 1 * s.x 2 < 2 ^ (32 * s.nwords) ∧ s.x 1 = 65535 ∧ s.x 2 = 65537 :=
  ⟨unit 1 [(1, 65535), (2, 65537)], by decide, by decide, by decide, by decide, by decide⟩

/-- The ends of the witness range: `n = 3`; `a = 1`; `a = n - 1`; then `a = 2 = n - 2`. -/
theorem witness_MrroundResult :
    (unit 1 [(0, 3), (1, 2)]).x 0 < 4 ∧ (unit 1 [(0, 5), (1, 1)]).x 1 < 2 ∧
      (unit 1 [(0, 5), (1, 4)]).x 0 - 2 < (unit 1 [(0, 5), (1, 4)]).x 1 ∧
      4 ≤ (unit 1 [(0, 4), (1, 2)]).x 0 ∧ 2 ≤ (unit 1 [(0, 4), (1, 2)]).x 1 ∧
      (unit 1 [(0, 4), (1, 2)]).x 1 ≤ (unit 1 [(0, 4), (1, 2)]).x 0 - 2 := by decide

/-- The least number with a decomposition; the least with a witness, and that witness. -/
theorem witness_RoundPredicateIsMillerRabins : 2 ≤ 2 ∧ (4 ≤ 4 ∧ 2 ≤ 2 ∧ 2 ≤ 4 - 2) := by decide

/-- Each engine step of MRTEST at the edge of its guard: `n = 3`; `n = 4` with the rounds done; `n = 4` with one left;
an answer awaited; the answers `n - 3`, a passing one and a failing one. -/
theorem witness_MrtestSteps :
    (∃ (s : State) (f : Inflight), s.inflight = some f ∧ f.pending = none ∧ f.round = 0 ∧ s.x 0 < 4 ∧ s.x 0 = 3) ∧
      (∃ (s : State) (f : Inflight), s.inflight = some f ∧ f.pending = none ∧ 4 ≤ s.x 0 ∧ f.round = 0) ∧
      (∃ (s : State) (f : Inflight), s.inflight = some f ∧ f.pending = none ∧ 4 ≤ s.x 0 ∧ f.round < 1) ∧
      (∃ (s : State) (f : Inflight), s.inflight = some f ∧ f.pending = some (s.x 0 - 3) ∧ s.rngReply = none) ∧
      ∃ (s : State) (f : Inflight), s.inflight = some f ∧ f.pending = some (s.x 0 - 3) ∧ s.rngReply = some 22 ∧
        s.x 0 - 3 ≤ 22 ∧ (5 < s.x 0 - 3 ∧ roundPasses (5 + 2) (s.x 0) = true) ∧
        (0 < s.x 0 - 3 ∧ roundPasses (0 + 2) (s.x 0) = false) :=
  ⟨⟨flying (unit 1 [(0, 3)]) 0x09000001 0 none, _, rfl, rfl, rfl, by decide, by decide⟩,
    ⟨flying (unit 1 [(0, 4)]) 0x09000000 0 none, _, rfl, rfl, by decide, rfl⟩,
    ⟨flying (unit 1 [(0, 4)]) 0x09000001 0 none, _, rfl, rfl, by decide, by decide⟩,
    ⟨flying (unit 1 [(0, 4)]) 0x09000001 0 (some 1), _, rfl, rfl, rfl⟩,
    ⟨{ flying (unit 1 [(0, 25)]) 0x09000002 0 (some 22) with rngReply := some 22 }, _, rfl, rfl, rfl, by decide,
      by decide, by decide⟩⟩

/-- An outcome of each kind: V-MT-4, `n = 1`, V-MT-5, V-MT-17. -/
theorem witness_MrtestStepsComputeOutcome :
    ∀ c : Nat × Nat × List Nat × MrOutcome × Nat,
      c ∈ ([(561, 3, [48, 0], .composite, 2), (1, 3, [], .composite, 0), (561, 3, [48, 99, 101], .prime, 3),
        (7919, 3, [7916], .witnessRange, 1)] : List (Nat × Nat × List Nat × MrOutcome × Nat)) →
      ∃ s : State, s.inflight = some { word := 0x09000003, round := 0, pending := none } ∧
        decode 0x09000003 = .ok (.mrtest 0 3) ∧ s.rngReply = none ∧ s.script = drawEvents c.2.2.1 ∧ s.x 0 = c.1 ∧
        mrTestOutcome (s.x 0) 3 c.2.2.1 = some (c.2.2.2.1, c.2.2.2.2) := by
  intro c hc
  refine ⟨queued (flying (unit 1 [(0, c.1)]) 0x09000003 0 none) (drawEvents c.2.2.1), rfl, rfl, rfl, rfl, rfl, ?_⟩
  simp only [List.mem_cons, List.not_mem_nil, or_false] at hc
  rcases hc with rfl | rfl | rfl | rfl <;> decide

theorem witness_AnsweredMrtestEnds :
    ∃ (s : State) (draws : List Nat), s.inflight = some { word := 0x09000003, round := 0, pending := none } ∧
      decode 0x09000003 = .ok (.mrtest 0 3) ∧ s.rngReply = none ∧ s.script = drawEvents draws ∧ 3 ≤ draws.length ∧
      draws.length = 3 :=
  ⟨queued (flying (unit 1 [(0, 561)]) 0x09000003 0 none) (drawEvents [48, 99, 101]), [48, 99, 101],
    rfl, rfl, rfl, rfl, by decide, rfl⟩

theorem witness_MrroundPassesEveryPrime :
    ∃ s : State, Nat.Prime (s.x 0) ∧ 5 ≤ s.x 0 ∧ 2 ≤ s.x 1 ∧ s.x 1 ≤ s.x 0 - 2 :=
  ⟨unit 1 [(0, 5), (1, 3)], show Nat.Prime 5 by norm_num, by decide, by decide, by decide⟩

theorem witness_CompositeVerdictIsNeverWrong :
    Nat.Prime 5 ∧ 5 ≤ 5 ∧ (∀ v ∈ [0, 1], v < 5 - 3) ∧ mrTestOutcome 5 2 [0, 1] = some (.prime, 2) :=
  ⟨by norm_num, by decide, by decide, by decide⟩

theorem witness_MontgomeryLaws : 1 % 2 = 1 ∧ (2 ^ 32 - 1) % 2 = 1 := by decide

theorem witness_ReferenceReductionAgrees : 3233 % 2 = 1 ∧ 3233 < 2 ^ 32 ∧ 3232 < 3233 ∧ 0 < 3233 := by decide

/-- The textbook key (S2, S5). -/
theorem witness_SignThenVerifyRecoversTheMessage :
    ∃ (s t : State), Nat.Prime 61 ∧ Nat.Prime 53 ∧ (61 : Nat) ≠ 53 ∧ s.x 0 = 61 * 53 ∧ s.x 7 < s.x 0 ∧
      s.x 6 * s.x 4 % Nat.lcm (61 - 1) (53 - 1) = 1 % Nat.lcm (61 - 1) (53 - 1) ∧ (10 : RegNo) ≠ 0 ∧ (10 : RegNo) ≠ 4 ∧
      exec (.powmod 10 7 6 0) s = .next t :=
  ⟨unit 1 [(0, 3233), (4, 17), (6, 413), (7, 65)], _, by norm_num, by norm_num, by decide, by decide, by decide,
    by decide, by decide, by decide, rfl⟩

/-! ### Witnesses: tables and frames -/

theorem witness_CommandsReadSourcesAndWriteDestination :
    (∃ (i : Instr) (s t : State) (other : Vector Nat 16), exec i s = .next t ∧ s.status.err = false ∧
        (∀ r ∈ sourcesOf i, State.x { s with regs := other } r = s.x r) ∧ other ≠ s.regs ∧ t.status.err = false ∧
        destOf i = some 3 ∧ destOf i ≠ some 2) ∧
      ∃ (i : Instr) (s t : State) (other : Vector Nat 16), exec i s = .next t ∧ s.status.err = false ∧
        (∀ r ∈ sourcesOf i, State.x { s with regs := other } r = s.x r) ∧ t.status.err = true ∧ destOf i ≠ none :=
  ⟨⟨.gcd 3 1 2, unit 1 [(1, 60), (2, 52)], _, (unit 1 [(1, 60), (2, 52), (3, 7)]).regs, rfl, rfl, by decide, by decide,
      rfl, rfl, by decide⟩,
    ⟨.mulmod 3 1 2 0, unit 1 [], _, (unit 1 [(3, 7)]).regs, rfl, rfl, by decide, rfl, by decide⟩⟩

theorem witness_FrameOfRegisterCommands :
    ∃ (i : Instr) (s t : State) (index : Nat), destOf i = some 3 ∧ exec i s = .next t ∧
      inWindow s.nwords index = true ∧ ∀ j, locate s.nwords index ≠ .operand 3 j :=
  ⟨.gcd 3 1 2, unit 1 [(1, 60), (2, 52)], _, 1039, rfl, rfl, by decide, fun j h => by
    rw [show locate (unit 1 [(1, 60), (2, 52)]).nwords 1039 = .operand 15 0 from by decide] at h; cases h⟩

theorem witness_FrameOfVerdictCommands :
    (∃ (s t : State), destOf (.mrround 1 0) = none ∧ exec (.mrround 1 0) s = .next t ∧
        inWindow s.nwords (0x1000 / 4) = true) ∧
      ∃ (s t : State), destOf (.mrtest 0 1) = none ∧ exec (.mrtest 0 1) s = .next t ∧ t.inflight ≠ none :=
  ⟨⟨unit 1 [(0, 561), (1, 2)], _, rfl, rfl, by decide⟩,
    ⟨flying (unit 1 [(0, 561)]) 0x09000001 0 none, _, rfl, rfl, by decide⟩⟩

theorem witness_ErrorsOfEachCommand :
    ∃ s t : State, exec (.modinv 3 1 0) s = .next t ∧ s.status.err = false ∧ t.status.err = true :=
  ⟨unit 1 [(0, 8), (1, 4)], _, rfl, rfl, rfl⟩

/-! ### Witnesses: rules of the whole machine -/

/-- A state that a run reaches and that meets the invariant: an MRTEST of 7919 waiting for its first answer. -/
def waiting : State := flying (unit 1 [(0, 7919)]) 0x09000005 0 (some 7916)

theorem waiting_inv (es : List Event) : (queued waiting es).Inv where
  width := (by decide : 1 ≤ waiting.nwords ∧ waiting.nwords ≤ Config.maxNwords)
  operands := fun r => (by decide : ∀ r, waiting.x r < 2 ^ waiting.width) r
  busy_flags := fun _ => ⟨rfl, rfl⟩
  err_flags := fun h => by cases h
  no_err := fun _ => rfl
  listed := (by decide : waiting.status.ecode.toNat ≤ 7)
  busy_iff := (by decide : waiting.status.busy = true ↔ waiting.inflight.isSome = true)
  flight := fun f hf => by
    cases hf
    refine ⟨rfl, .mrtest 0 5, rfl, (by decide : 0 ≤ 5), fun h => absurd h (Nat.lt_irrefl 0), Or.inr ⟨rfl, ?_⟩⟩
    exact (by decide : 4 ≤ waiting.x 0 ∧ 0 < 5)
  quiet := rfl

/-- A state that meets the invariant with a command error outstanding. -/
def locked : State := flagged (unit 1 []) ⟨false, true, true, false, false, 0x04⟩

theorem locked_inv (es : List Event) : (queued locked es).Inv where
  width := (by decide : 1 ≤ locked.nwords ∧ locked.nwords ≤ Config.maxNwords)
  operands := fun r => (by decide : ∀ r, locked.x r < 2 ^ locked.width) r
  busy_flags := fun h => by cases h
  err_flags := fun _ => ⟨rfl, (by decide : locked.status.ecode ≠ 0x00)⟩
  no_err := fun h => by cases h
  listed := (by decide : locked.status.ecode.toNat ≤ 7)
  busy_iff := (by decide : locked.status.busy = true ↔ locked.inflight.isSome = true)
  flight := fun f hf => by cases hf
  quiet := rfl

theorem witness_ResetMeetsInvariant : 1 ≤ 1 ∧ 1 ≤ 65535 ∧ 65535 ≤ 65535 := by decide

theorem witness_StepKeepsInvariant : ∃ s t : State, s.Inv ∧ step s = .next t ∧ t ≠ s :=
  ⟨_, _, waiting_inv [.rngAnswer 0], rfl, by decide⟩

theorem witness_StepNeverStops : ∃ s : State, s.Inv ∧ s.inflight ≠ none := ⟨_, waiting_inv [], by decide⟩

/-- A run to a state with a command in flight, and one to a state with an error. -/
theorem witness_ReachableStatesKeepStatusInvariants :
    (∃ (events : List Event) (t : State),
        runSteps 1 { State.resetFor 1 with script := events } = .next t ∧ t.status.busy = true ∧ t.inflight ≠ none) ∧
      ∃ (events : List Event) (t : State),
        runSteps 1 { State.resetFor 65535 with script := events } = .next t ∧ t.status.err = true :=
  ⟨⟨[.hostWrite 0 0x05312000], _, rfl, rfl, by decide⟩, ⟨[.hostWrite 0 0x00000000], _, rfl, rfl⟩⟩

theorem witness_BusyIsSetAndClearedOnlyBy :
    (∃ s t : State, step s = .next t ∧ s.status.busy = false ∧ t.status.busy = true) ∧
      (∃ s t : State, step s = .next t ∧ s.status.busy = true ∧ t.status.busy = false ∧ s.nextEvent = .engine) ∧
      ∃ s t : State, step s = .next t ∧ s.status.busy = true ∧ s.nextEvent = .hostWrite 1039 7 ∧
        s.nextEvent.resets = false :=
  ⟨⟨queued (unit 1 []) [.hostWrite 0 0x05312000], _, rfl, rfl, rfl⟩,
    ⟨flying (unit 1 []) 0x05312000 0 none, _, rfl, rfl, rfl, rfl⟩,
    ⟨queued waiting [.hostWrite 1039 7], _, rfl, rfl, rfl, rfl⟩⟩

theorem witness_DoneIsSetAndClearedOnlyBy :
    (∃ s t : State, step s = .next t ∧ s.status.done = true ∧ t.status.done = false) ∧
      ∃ s t : State, step s = .next t ∧ s.status.done = false ∧ t.status.done = true :=
  ⟨⟨queued (flagged (unit 1 []) ⟨false, true, false, false, false, 0x00⟩) [.hostWrite 0 0x05312000], _, rfl, rfl, rfl⟩,
    ⟨flying (unit 1 []) 0x05312000 0 none, _, rfl, rfl, rfl⟩⟩

theorem witness_ErrIsSticky :
    ∃ s t : State, s.Inv ∧ step s = .next t ∧ s.status.err = true ∧ s.nextEvent.clearsStatusBit 2 = false ∧
      s.nextEvent.resets = false :=
  ⟨_, _, locked_inv [.hostWrite 0 0x05312000], rfl, rfl, rfl, rfl⟩

theorem witness_PrimeIsWrittenOnlyBy :
    (∃ s t : State, step s = .next t ∧ t.status.prime ≠ s.status.prime ∧ s.nextEvent.resets = false) ∧
      ∃ s t : State, step s = .next t ∧ t.status.prime ≠ s.status.prime ∧ s.nextEvent.resets = true :=
  ⟨⟨flying (unit 1 [(0, 2)]) 0x0900000A 0 none, _, rfl, by decide, rfl⟩,
    ⟨queued (flagged (unit 1 []) ⟨false, true, false, true, false, 0x00⟩) [srstEvent], _, rfl, by decide, rfl⟩⟩

/-- A host write to the last register of an idle unit. -/
theorem witness_OperandRegistersChangeOnlyBy :
    ∃ s t : State, s.Inv ∧ step s = .next t ∧ t.x 15 ≠ s.x 15 :=
  ⟨_, _, locked_inv [.hostWrite 1039 7], rfl, by decide⟩

theorem witness_OnlyMrtestRequestsRandomNumbers :
    ∃ s t : State, step s = .next t ∧ s.pending = none ∧ t.pending = some 1 :=
  ⟨flying (unit 1 [(0, 4)]) 0x09000001 0 none, _, rfl, rfl, by decide⟩

theorem witness_UnansweredRequestKeepsBusy :
    (∃ s : State, s.Inv ∧ s.pending = some 7916 ∧ s.script ≠ [] ∧
        ∀ e ∈ s.script, e.resets = false ∧ ∀ v, e ≠ .rngAnswer v) ∧
      ∃ s t : State, s.nextEvent.resets = true ∧ step s = .next t ∧ s.pending ≠ none :=
  ⟨⟨_, waiting_inv [.hostWrite 2 0, .engine], rfl, by decide, by
      intro e he
      simp only [queued, List.mem_cons, List.not_mem_nil, or_false] at he
      rcases he with rfl | rfl <;> exact ⟨by decide, fun v h => by cases h⟩⟩,
    ⟨queued waiting [.hardReset], _, rfl, rfl, by decide⟩⟩

end Sys2Proof.Tests
end

section
/-! SUPPORT. What an engine step of a command leaves as it was, what it can end with, and that it depends on nothing but
the command's sources, the width, the in-flight record and the RNG port. -/

namespace Sys2Proof.Machine

/-! ### The fields after an RNG answer -/

@[simp] theorem State.answerRound_nwords (s : State) (n v : Nat) : (s.answerRound n v).nwords = s.nwords := by
  unfold State.answerRound; split_ifs <;> rfl
@[simp] theorem State.answerRound_regs (s : State) (n v : Nat) : (s.answerRound n v).regs = s.regs := by
  unfold State.answerRound; split_ifs <;> rfl
@[simp] theorem State.answerRound_lastCmd (s : State) (n v : Nat) : (s.answerRound n v).lastCmd = s.lastCmd := by
  unfold State.answerRound; split_ifs <;> rfl
@[simp] theorem State.answerRound_readData (s : State) (n v : Nat) : (s.answerRound n v).readData = s.readData := by
  unfold State.answerRound; split_ifs <;> rfl
@[simp] theorem State.answerRound_script (s : State) (n v : Nat) : (s.answerRound n v).script = s.script := by
  unfold State.answerRound; split_ifs <;> rfl
@[simp] theorem State.answerRound_freeCount (s : State) (n v : Nat) :
    (s.answerRound n v).freeCount = s.freeCount := by
  unfold State.answerRound; split_ifs <;> rfl
@[simp] theorem State.answerRound_hviol (s : State) (n v : Nat) :
    (s.answerRound n v).status.hviol = s.status.hviol := by
  unfold State.answerRound; split_ifs <;> rfl

/-! ### What one engine step can do -/

variable {i : Instr} {s t : State}

theorem ExecEffect.of_exec (h : exec i s = .next t) : ExecEffect i s t := by
  obtain ⟨u, hu, he⟩ := exec_effect i s
  cases hu.symm.trans h
  exact he

/-- No command touches the width, LASTCMD, HVIOL, the host port, the events to come or the count of hard resets. -/
theorem ExecEffect.frame (h : ExecEffect i s t) :
    t.nwords = s.nwords ∧ t.lastCmd = s.lastCmd ∧ t.status.hviol = s.status.hviol ∧ t.readData = s.readData ∧
      t.script = s.script ∧ t.freeCount = s.freeCount := by
  cases h <;> simp

/-- An engine step ends the command (R36), or leaves it in flight with STATUS whole. -/
theorem ExecEffect.ends_or_continues (h : ExecEffect i s t) :
    t.inflight = none ∧ t.status.busy = false ∧ t.status.done = true ∨
      t.status = s.status ∧ (t.inflight = none ↔ s.inflight = none) := by
  cases h with
  | raise e he hp => exact .inl ⟨rfl, rfl, rfl⟩
  | result rd v hd hv => exact .inl ⟨rfl, rfl, rfl⟩
  | verdict b hd hp => exact .inl ⟨rfl, rfl, rfl⟩
  | wait hm hw => exact .inr ⟨rfl, Iff.rfl⟩
  | issue rm iters hi hp hn hr => exact .inr ⟨rfl, by simp⟩
  | answer rm iters v b hi hp hv =>
    rcases answerRound_cases s (s.x rm) v with ⟨-, h⟩ | ⟨-, -, h⟩ | ⟨-, -, h⟩ <;> rw [h]
    · exact .inl ⟨rfl, rfl, rfl⟩
    · exact .inr ⟨rfl, by simp⟩
    · exact .inl ⟨rfl, rfl, rfl⟩

/-- An engine step leaves ERR and ECODE, or raises an error, which leaves the registers and PRIME (R175). -/
theorem ExecEffect.err_kept_or_raised (h : ExecEffect i s t) :
    t.status.err = s.status.err ∧ t.status.ecode = s.status.ecode ∨
      t.status.err = true ∧ t.regs = s.regs ∧ t.status.prime = s.status.prime := by
  cases h with
  | raise e he hp => exact .inr ⟨rfl, rfl, rfl⟩
  | result rd v hd hv => exact .inl ⟨rfl, rfl⟩
  | verdict b hd hp => exact .inl ⟨rfl, rfl⟩
  | wait hm hw => exact .inl ⟨rfl, rfl⟩
  | issue rm iters hi hp hn hr => exact .inl ⟨rfl, rfl⟩
  | answer rm iters v b hi hp hv =>
    rcases answerRound_cases s (s.x rm) v with ⟨-, h⟩ | ⟨-, -, h⟩ | ⟨-, -, h⟩ <;> rw [h]
    · exact .inr ⟨rfl, rfl, rfl⟩
    · exact .inl ⟨rfl, rfl⟩
    · exact .inl ⟨rfl, rfl⟩

/-- PRIME stays, or a command without a destination has ended without an error (R28). -/
theorem ExecEffect.prime_kept_or_written (h : ExecEffect i s t) :
    t.status.prime = s.status.prime ∨
      destOf i = none ∧ t.inflight = none ∧ t.status.done = true ∧ t.status.err = s.status.err := by
  cases h with
  | raise e he hp => exact .inl rfl
  | result rd v hd hv => exact .inl rfl
  | verdict b hd hp => exact .inr ⟨hd, rfl, rfl, rfl⟩
  | wait hm hw => exact .inl rfl
  | issue rm iters hi hp hn hr => exact .inl rfl
  | answer rm iters v b hi hp hv =>
    rcases answerRound_cases s (s.x rm) v with ⟨-, h⟩ | ⟨-, -, h⟩ | ⟨-, -, h⟩ <;> rw [h]
    · exact .inl rfl
    · exact .inl rfl
    · exact .inr ⟨by rw [hi]; rfl, rfl, rfl, rfl⟩

/-- The registers stay, or the command has completed with a result in its destination (R22, R36). -/
theorem ExecEffect.regs_kept_or_result (h : ExecEffect i s t) :
    t.regs = s.regs ∨ ∃ rd v, destOf i = some rd ∧ t = s.finishWith rd v := by
  cases h with
  | result rd v hd hv => exact .inr ⟨rd, v, hd, rfl⟩
  | _ => exact .inl (by simp)

/-- A command with a destination register ends with an error or with a result in it. -/
theorem ExecEffect.raise_or_result {rd : RegNo} (h : ExecEffect i s t) (hd : destOf i = some rd) :
    (∃ e, t = s.raise e) ∨ ∃ v, t = s.finishWith rd v := by
  have hmr : isMrtest i = false := by cases i with
    | mrtest rm iters => cases hd
    | _ => rfl
  cases h with
  | raise e he hp => exact .inl ⟨e, rfl⟩
  | result rd' v hd' hv =>
    cases hd.symm.trans hd'
    exact .inr ⟨v, rfl⟩
  | verdict b hn hp => cases hd.symm.trans hn
  | wait hm hw => cases hmr.symm.trans hm
  | issue rm iters hi hp hn hr => subst hi; cases hd
  | answer rm iters v b hi hp hv => subst hi; cases hd

/-- A command without a destination register leaves the registers. -/
theorem ExecEffect.regs_of_no_dest (h : ExecEffect i s t) (hd : destOf i = none) : t.regs = s.regs := by
  rcases h.regs_kept_or_result with hr | ⟨rd, v, hd', -⟩
  · exact hr
  · cases hd.symm.trans hd'

/-- A register that is not the command's destination stays. -/
theorem ExecEffect.x_of_not_dest {r : RegNo} (h : ExecEffect i s t) (hd : destOf i ≠ some r) : t.x r = s.x r := by
  rcases h.regs_kept_or_result with hr | ⟨rd, v, hd', rfl⟩
  · exact State.x_congr hr r
  · have hne : r ≠ rd := fun hr => hd (hr ▸ hd')
    rw [State.finishWith_x, if_neg hne]

/-! ### What the operand window shows of it -/

theorem inWindow_iff (n index : Nat) : inWindow n index = true ↔ ∃ i j, locate n index = .operand i j := by
  unfold inWindow
  cases locate n index <;> simp

theorem State.peekWord_operand {s : State} {index j : Nat} {q : RegNo} (h : locate s.nwords index = .operand q j) :
    s.peekWord index = wordOf (s.x q) j := by
  simp [State.peekWord, h]

/-- A window word follows the register it is a word of. -/
theorem State.peekWord_congr {s t : State} {index j : Nat} {q : RegNo} (hn : t.nwords = s.nwords)
    (hl : locate s.nwords index = .operand q j) (hx : t.x q = s.x q) : t.peekWord index = s.peekWord index := by
  rw [State.peekWord_operand hl, State.peekWord_operand (hn ▸ hl), hx]

/-! ### What an engine step depends on -/

/-- What an engine step does to the state it is taken in, as data: the arms of `ExecEffect`. -/
inductive Action where
  | raise (e : CmdError)
  | result (rd : RegNo) (v : Nat)
  | verdict (b : Bool)
  | wait
  | issue (bound : Nat)
  | answer (n v : Nat)

/-- The state after the action. -/
def Action.apply (a : Action) (s : State) : State :=
  match a with
  | .raise e => s.raise e
  | .result rd v => s.finishWith rd v
  | .verdict b => s.finishVerdict b
  | .wait => s
  | .issue bound => s.issueRequest bound
  | .answer n v => s.answerRound n v

/-- The action is one of a command with this destination (R22). -/
def Action.Fits (a : Action) (dest : Option RegNo) : Prop :=
  match a with
  | .raise _ => True
  | .result rd _ => dest = some rd
  | .verdict _ | .wait | .issue _ | .answer _ _ => dest = none

/-- Two states show the same to command `i`. -/
structure SameView (i : Instr) (s u : State) : Prop where
  nwords : u.nwords = s.nwords
  inflight : u.inflight = s.inflight
  rngReply : u.rngReply = s.rngReply
  sources : ∀ r ∈ sourcesOf i, u.x r = s.x r

theorem SameView.width {u : State} (h : SameView i s u) : u.width = s.width := by
  rw [State.width, State.width, h.nwords]

theorem SameView.pending {u : State} (h : SameView i s u) : u.pending = s.pending := by
  rw [State.pending, State.pending, h.inflight]

theorem SameView.round {u : State} (h : SameView i s u) : u.round = s.round := by
  rw [State.round, State.round, h.inflight]

/-- A command takes the same action in two states that show the same to it (R22). -/
theorem exec_same_action {u : State} (h : SameView i s u) :
    ∃ a : Action, a.Fits (destOf i) ∧ exec i s = .next (a.apply s) ∧ exec i u = .next (a.apply u) := by
  have hx := h.sources
  cases i with
  | mulmod rd rs1 rs2 rm =>
    simp only [sourcesOf, List.forall_mem_cons] at hx
    obtain ⟨h1, h2, hm, -⟩ := hx
    simp only [exec, execMulmod, h1, h2, hm]
    split
    · exact ⟨.raise .modulusZero, trivial, rfl, rfl⟩
    · exact ⟨.result rd _, rfl, rfl, rfl⟩
  | montmul rd rs1 rs2 rm =>
    simp only [sourcesOf, List.forall_mem_cons] at hx
    obtain ⟨h1, h2, hm, -⟩ := hx
    simp only [exec, execMontmul, h1, h2, hm, h.width]
    split
    · exact ⟨.raise .modulusZero, trivial, rfl, rfl⟩
    · split
      · exact ⟨.raise .modulusEven, trivial, rfl, rfl⟩
      · exact ⟨.result rd _, rfl, rfl, rfl⟩
  | montr2 rd rm =>
    simp only [sourcesOf, List.forall_mem_cons] at hx
    simp only [exec, execMontr2, hx.1, h.width]
    split
    · exact ⟨.raise .modulusZero, trivial, rfl, rfl⟩
    · split
      · exact ⟨.raise .modulusEven, trivial, rfl, rfl⟩
      · exact ⟨.result rd _, rfl, rfl, rfl⟩
  | powmod rd rs1 rs2 rm =>
    simp only [sourcesOf, List.forall_mem_cons] at hx
    obtain ⟨h1, h2, hm, -⟩ := hx
    simp only [exec, execPowmod, h1, h2, hm]
    split
    · exact ⟨.raise .modulusZero, trivial, rfl, rfl⟩
    · exact ⟨.result rd _, rfl, rfl, rfl⟩
  | gcd rd rs1 rs2 =>
    simp only [sourcesOf, List.forall_mem_cons] at hx
    obtain ⟨h1, h2, -⟩ := hx
    simp only [exec, execGcd, h1, h2]
    exact ⟨.result rd _, rfl, rfl, rfl⟩
  | modinv rd rs1 rm =>
    simp only [sourcesOf, List.forall_mem_cons] at hx
    obtain ⟨h1, hm, -⟩ := hx
    simp only [exec, execModinv, h1, hm]
    split
    · exact ⟨.raise .modulusZero, trivial, rfl, rfl⟩
    · cases inverseOf (s.x rs1) (s.x rm) with
      | none => exact ⟨.raise .noInverse, trivial, rfl, rfl⟩
      | some v => exact ⟨.result rd v, rfl, rfl, rfl⟩
  | lambda rd rs1 rs2 =>
    simp only [sourcesOf, List.forall_mem_cons] at hx
    obtain ⟨h1, h2, -⟩ := hx
    simp only [exec, execLambda, h1, h2, h.width]
    split
    · exact ⟨.raise .operandRange, trivial, rfl, rfl⟩
    · split
      · exact ⟨.raise .resultOverflow, trivial, rfl, rfl⟩
      · exact ⟨.result rd _, rfl, rfl, rfl⟩
  | mrround rs1 rm =>
    simp only [sourcesOf, List.forall_mem_cons] at hx
    obtain ⟨h1, hm, -⟩ := hx
    simp only [exec, execMrround, h1, hm]
    split
    · exact ⟨.raise .witnessRange, trivial, rfl, rfl⟩
    · exact ⟨.verdict _, rfl, rfl, rfl⟩
  | mrtest rm iters =>
    simp only [sourcesOf, List.forall_mem_cons] at hx
    simp only [exec, execMrtest, hx.1, h.pending, h.round, h.rngReply]
    cases s.pending with
    | some b =>
      cases s.rngReply with
      | none => exact ⟨.wait, rfl, rfl, rfl⟩
      | some v => exact ⟨.answer (s.x rm) v, rfl, rfl, rfl⟩
    | none =>
      dsimp only
      split_ifs
      · exact ⟨.verdict _, rfl, rfl, rfl⟩
      · exact ⟨.wait, rfl, rfl, rfl⟩
      · exact ⟨.verdict true, rfl, rfl, rfl⟩
      · exact ⟨.issue _, rfl, rfl, rfl⟩
      · exact ⟨.wait, rfl, rfl, rfl⟩

/-- What an action does to the registers and what it does to the rest do not depend on each other. -/
theorem Action.apply_withRegs (a : Action) (s : State) (other : Vector Nat 16) :
    (a.apply { s with regs := other }).status = (a.apply s).status ∧
      (a.apply { s with regs := other }).inflight = (a.apply s).inflight ∧
      (a.apply { s with regs := other }).rngReply = (a.apply s).rngReply := by
  cases a with
  | answer n v =>
    simp only [Action.apply, State.answerRound]
    split_ifs <;> exact ⟨rfl, rfl, rfl⟩
  | _ => exact ⟨rfl, rfl, rfl⟩

/-- An action that writes no result leaves the registers. -/
theorem Action.apply_regs (a : Action) (s : State) : (∃ rd v, a = .result rd v) ∨ (a.apply s).regs = s.regs := by
  cases a with
  | result rd v => exact .inl ⟨rd, v, rfl⟩
  | answer n v => exact .inr (State.answerRound_regs s n v)
  | _ => exact .inr rfl

/-- An action that fits a destination and leaves ERR 0 writes the same value to it in every state. -/
theorem Action.apply_dest {a : Action} {rd : RegNo} (ha : a.Fits (some rd)) (s u : State)
    (he : (a.apply s).status.err = false) : (a.apply u).x rd = (a.apply s).x rd := by
  cases a with
  | raise e => cases he
  | result rd' v =>
    cases ha
    simp [Action.apply]
  | _ => cases ha

end Sys2Proof.Machine
end

section
/-! PROOFS. The frames of the commands (O43, O44, O45). -/

namespace Sys2Proof.Machine

/-- Settles O43: the command takes the same action in both states; the rest is what an engine step can do. -/
theorem commandsReadSourcesAndWriteDestination : Obligations.CommandsReadSourcesAndWriteDestination := by
  refine ⟨fun i s t other h herr hsrc => ?_, fun i s t r h hd => (ExecEffect.of_exec h).x_of_not_dest hd,
    fun i s t h hs ht => ?_, fun i s t h hd => ?_⟩
  · obtain ⟨a, hfit, hs, hu⟩ := exec_same_action (i := i) (s := s) (u := { s with regs := other })
      ⟨rfl, rfl, rfl, hsrc⟩
    cases hs.symm.trans h
    obtain ⟨hst, hfl, hrng⟩ := a.apply_withRegs s other
    refine ⟨_, hu, hst, hfl, hrng, fun he => ?_, fun he rd hd => ?_⟩
    · rcases a.apply_regs { s with regs := other } with ⟨rd, v, rfl⟩ | hr
      · cases herr.symm.trans he
      · exact hr
    · exact Action.apply_dest (hd ▸ hfit) s _ he
  · rcases (ExecEffect.of_exec h).err_kept_or_raised with ⟨he, -⟩ | ⟨-, hkept⟩
    · cases hs.symm.trans (he.symm.trans ht)
    · exact hkept
  · rcases (ExecEffect.of_exec h).prime_kept_or_written with hp | ⟨hn, -⟩
    · exact hp
    · exact absurd hn hd

/-- Settles O44: the command ends with an error or with a result in its destination. -/
theorem frameOfRegisterCommands : Obligations.FrameOfRegisterCommands := by
  intro i rd s t hd h
  have heff := ExecEffect.of_exec h
  have hx : ∀ r, r ≠ rd → t.x r = s.x r := fun r hr =>
    heff.x_of_not_dest fun hr' => hr (Option.some.inj (hr'.symm.trans hd))
  have hwin : ∀ index, inWindow s.nwords index = true → (∀ j, locate s.nwords index ≠ .operand rd j) →
      t.peekWord index = s.peekWord index := fun index hw hne => by
    obtain ⟨q, j, hl⟩ := (inWindow_iff _ _).mp hw
    exact State.peekWord_congr heff.frame.1 hl (hx q fun hq => hne j (hq ▸ hl))
  refine ⟨hx, hwin, ?_⟩
  rcases heff.raise_or_result hd with ⟨e, rfl⟩ | ⟨v, rfl⟩ <;> simp

/-- Settles O45: without a destination register no register changes, and a step that does not end the command keeps
STATUS. -/
theorem frameOfVerdictCommands : Obligations.FrameOfVerdictCommands := by
  intro i s t hd h
  have heff := ExecEffect.of_exec h
  have hx := State.x_congr (heff.regs_of_no_dest hd)
  obtain ⟨hn, hl, hv, hr, hs, hf⟩ := heff.frame
  refine ⟨hx, fun addr hw => ?_, hv, hl, hn, hr, hs, hf, fun hi => ?_⟩
  · obtain ⟨q, j, hq⟩ := (inWindow_iff _ _).mp hw
    rw [State.peekByte, State.peekByte, State.peekWord_congr hn hq (hx q)]
  · rcases heff.ends_or_continues with ⟨hend, -⟩ | ⟨hst, -⟩
    · exact absurd hend hi
    · exact hst

end Sys2Proof.Machine
end

section
/-! SUPPORT. What each operation, each engine step and each event does to the invariant of the unit. -/

namespace Sys2Proof.Machine

variable {i : Instr} {s t : State}

/-! ### The in-flight record -/

/-- A record that a CMD write has just put in flight fits every command. -/
theorem flightOk_taken (s : State) (w : Word) (i : Instr) :
    FlightOk s { word := w, round := 0, pending := none } i := by
  cases i <;> simp [FlightOk]

/-- Only an MRTEST fits a record with a request outstanding, and it has a round left to run. -/
theorem FlightOk.mrtest_of_pending {f : Inflight} {b : Nat} (h : FlightOk s f i) (hp : f.pending = some b) :
    ∃ rm iters, i = .mrtest rm iters ∧ 4 ≤ s.x rm ∧ f.round < iters := by
  cases i with
  | mrtest rm iters =>
    obtain ⟨-, -, hn | ⟨-, h4, hr⟩⟩ := h
    · cases hp.symm.trans hn
    · exact ⟨rm, iters, rfl, h4, hr⟩
  | _ => cases hp.symm.trans h.2

/-- The command in flight fits its record. -/
theorem State.Inv.flightOk {f : Inflight} (h : s.Inv) (hf : s.inflight = some f) (hd : decode f.word = .ok i) :
    FlightOk s f i := by
  obtain ⟨-, j, hj, hok⟩ := h.flight f hf
  cases hj.symm.trans hd
  exact hok

/-- Where ERR is 1 the unit is idle. -/
theorem State.Inv.idle_of_err (h : s.Inv) (he : s.status.err = true) :
    s.status.busy = false ∧ s.inflight = none := by
  cases hf : s.inflight with
  | some f => cases he.symm.trans (h.flags_in_flight hf).2.1
  | none =>
    refine ⟨Bool.eq_false_iff.mpr fun hb => ?_, rfl⟩
    cases he.symm.trans (h.busy_flags hb).2

theorem State.Inv.idle_of_not_busy (h : s.Inv) (hb : s.status.busy = false) : s.inflight = none := by
  cases hf : s.inflight with
  | some f => cases hb.symm.trans (h.flags_in_flight hf).1
  | none => rfl

/-! ### Operations -/

theorem State.Inv.violate (h : s.Inv) : s.violate.Inv :=
  ⟨h.width, h.operands, h.busy_flags, h.err_flags, h.no_err, h.listed, h.busy_iff, h.flight, h.quiet⟩

theorem State.Inv.withReadData (h : s.Inv) (w : Word) : State.Inv { s with readData := w } :=
  ⟨h.width, h.operands, h.busy_flags, h.err_flags, h.no_err, h.listed, h.busy_iff, h.flight, h.quiet⟩

/-- A STATUS write clears ERR and ECODE together or neither (R33). -/
theorem Status.writeClear_err_ecode (f : Status) (d : Word) :
    (f.writeClear d).err = false ∧ (f.writeClear d).ecode = 0x00 ∨
      (f.writeClear d).err = f.err ∧ (f.writeClear d).ecode = f.ecode := by
  unfold Status.writeClear
  cases d.getLsbD 2
  · exact .inr ⟨rfl, rfl⟩
  · exact .inl ⟨rfl, rfl⟩

theorem State.Inv.writeStatus (h : s.Inv) (d : Word) : (s.writeStatus d).Inv := by
  rcases s.status.writeClear_err_ecode d with ⟨he, hc⟩ | ⟨he, hc⟩
  · exact ⟨h.width, h.operands, fun hb => ⟨(h.busy_flags hb).1, he⟩, fun he' => (by cases he.symm.trans he'),
      fun _ => hc, hc ▸ (by decide : (0x00 : BitVec 8).toNat ≤ 7), h.busy_iff, h.flight, h.quiet⟩
  · refine ⟨h.width, h.operands, fun hb => ⟨(h.busy_flags hb).1, he.trans (h.busy_flags hb).2⟩, ?_, ?_, ?_,
      h.busy_iff, h.flight, h.quiet⟩ <;> simp only [State.writeStatus_status, he, hc]
    · exact h.err_flags
    · exact h.no_err
    · exact h.listed

theorem State.Inv.softReset (h : s.Inv) : s.softReset.Inv :=
  h.ended rfl h.operands rfl rfl rfl (by simp) (by simp) (by simp)

theorem State.Inv.hardReset (h : s.Inv) : s.hardReset.Inv :=
  h.ended (by simp) (fun r => by simpa using Nat.mod_lt _ (Nat.two_pow_pos s.width)) (by simp) (by simp) (by simp)
    (by simp) (by simp) (by simp)

theorem State.Inv.resetFor {n : Nat} (h1 : 1 ≤ n) (h2 : n ≤ 65535) : (State.resetFor n).Inv where
  width := ⟨h1, h2⟩
  operands r := by rw [State.resetFor_x]; positivity
  busy_flags hb := by cases hb
  err_flags he := by cases he
  no_err _ := rfl
  listed := Nat.zero_le 7
  busy_iff := by simp [State.resetFor]
  flight f hf := by cases hf
  quiet := rfl

theorem State.ready_iff : s.ready = true ↔ s.status.busy = false ∧ s.status.err = false := by
  simp [State.ready]

theorem State.not_ready_iff : s.ready = false ↔ s.status.busy = true ∨ s.status.err = true := by
  rw [← Bool.not_eq_true, State.ready_iff, not_and_or, Bool.not_eq_false, Bool.not_eq_false]

theorem State.Inv.take (h : s.Inv) (hr : s.ready = true) {w : Word} (hd : decode w = .ok i) : (s.take w).Inv := by
  obtain ⟨-, he⟩ := State.ready_iff.mp hr
  refine ⟨h.width, h.operands, fun _ => ⟨rfl, he⟩, fun he' => ?_, fun _ => h.no_err he, h.listed, by simp,
    fun f hf => ?_, h.quiet⟩
  · cases he.symm.trans he'
  · cases hf
    exact ⟨rfl, i, hd, flightOk_taken _ w i⟩

theorem State.Inv.takeIllegal (h : s.Inv) (hr : s.ready = true) (w : Word) : (s.takeIllegal w).Inv := by
  obtain ⟨hb, -⟩ := State.ready_iff.mp hr
  exact h.ended rfl h.operands hb (h.idle_of_not_busy hb) h.quiet
    (fun _ => ⟨rfl, CmdError.illegalCommand.code_listed.1⟩) (fun he => by cases he) CmdError.illegalCommand.code_listed.2

/-- A write to one word of a register of an idle unit. -/
theorem State.Inv.setWord (h : s.Inv) (hb : s.status.busy = false) (q : RegNo) {j : Nat} (hj : j < s.nwords)
    (d : Word) : (s.setX q (replaceWord (s.x q) j d)).Inv := by
  refine h.ended rfl (fun r => ?_) hb (h.idle_of_not_busy hb) h.quiet h.err_flags h.no_err h.listed
  rw [State.setX_x]
  split
  · exact replaceWord_lt d (h.operands q) hj
  · exact h.operands r

/-! ### Engine steps -/

/-- A state with a command still in flight meets the invariant if its record does. -/
theorem State.Inv.withRecord (h : s.Inv) {f g : Inflight} (hf : s.inflight = some f) (hd : decode f.word = .ok i)
    (hw : g.word = f.word) (hok : FlightOk s g i) : State.Inv { s with inflight := some g } := by
  refine ⟨h.width, h.operands, h.busy_flags, h.err_flags, h.no_err, h.listed, by simp [h.busy_iff, hf],
    fun f' hf' => ?_, h.quiet⟩
  cases hf'
  exact ⟨hw.trans (h.flight f hf).1, i, hw ▸ hd, hok⟩

theorem State.Inv.issueRequest (h : s.Inv) {f : Inflight} {rm : RegNo} {iters : Nat} (hf : s.inflight = some f)
    (hd : decode f.word = .ok (.mrtest rm iters)) (hn : 4 ≤ s.x rm) (hr : f.round < iters) :
    (s.issueRequest (s.x rm - 3)).Inv := by
  have he : s.issueRequest (s.x rm - 3) = { s with inflight := some { f with pending := some (s.x rm - 3) } } := by
    simp [State.issueRequest, hf]
  obtain ⟨hle, hpos, -⟩ := h.flightOk hf hd
  rw [he]
  exact h.withRecord hf hd rfl ⟨hle, hpos, .inr ⟨rfl, hn, hr⟩⟩

/-- An answer leaves the invariant: an error, a verdict, or one round more of the `iters` (R156). -/
theorem State.Inv.answerRound (h : s.Inv) {f : Inflight} {rm : RegNo} {iters b : Nat} (hf : s.inflight = some f)
    (hd : decode f.word = .ok (.mrtest rm iters)) (hp : f.pending = some b) (v : Nat) :
    (s.answerRound (s.x rm) v).Inv := by
  obtain ⟨rm', iters', hi, h4, hlt⟩ := (h.flightOk hf hd).mrtest_of_pending hp
  cases hi
  obtain ⟨hle, hpos, -⟩ := h.flightOk hf hd
  have hc : s.consumeReply = { s with inflight := some { f with pending := none } } := by
    simp [State.consumeReply, hf, h.quiet]
  have hinv : s.consumeReply.Inv := hc ▸ h.withRecord hf hd rfl ⟨hle, hpos, .inl rfl⟩
  have hfl : s.consumeReply.inflight = some { f with pending := none } := by simp [hf]
  rcases answerRound_cases s (s.x rm) v with ⟨-, e⟩ | ⟨-, -, e⟩ | ⟨-, -, e⟩ <;> rw [e]
  · exact hinv.raise _
  · have hn : s.consumeReply.nextRound =
        { s.consumeReply with inflight := some { f with round := f.round + 1, pending := none } } := by
      simp [State.nextRound, hf]
    rw [hn]
    exact hinv.withRecord hfl hd rfl ⟨hlt, fun _ => h4, .inl rfl⟩
  · exact hinv.finishVerdict hfl false

/-- The command's own step keeps the invariant. -/
theorem State.Inv.command (h : s.Inv) {f : Inflight} (hf : s.inflight = some f) (hd : decode f.word = .ok i)
    (he : ExecEffect i s t) : t.Inv := by
  cases he with
  | raise e _ _ => exact h.raise e
  | result rd v _ hv => exact h.finishWith hf rd (hv h.width.1 h.operands)
  | verdict b _ _ => exact h.finishVerdict hf b
  | wait _ _ => exact h
  | issue rm iters hi _ hn hr =>
    subst hi
    exact h.issueRequest hf hd hn (State.round_of_inflight hf ▸ hr)
  | answer rm iters v b _ _ hv => cases h.quiet.symm.trans hv

/-- With a request outstanding and a value on the RNG port, the command in flight is an MRTEST and takes the value as
its answer. -/
theorem State.Inv.answered (h : s.Inv) {f : Inflight} {b v : Nat} (hf : s.inflight = some f)
    (hd : decode f.word = .ok i) (hp : s.pending = some b) (he : ExecEffect i { s with rngReply := some v } t) :
    ∃ rm iters, i = .mrtest rm iters ∧ t = s.answerRound (s.x rm) v := by
  have hpf : f.pending = some b := (State.pending_of_inflight hf).symm.trans hp
  obtain ⟨rm, iters, rfl, -, -⟩ := (h.flightOk hf hd).mrtest_of_pending hpf
  have hbusy : ¬ (s.pending = none ∨ isMrtest (.mrtest rm iters) = false) := by simp [hp, isMrtest]
  cases he with
  | raise e _ hp' => exact absurd hp' hbusy
  | result rd v hd' _ => cases hd'
  | verdict b _ hp' => exact absurd hp' hbusy
  | wait _ hw =>
    rcases hw with hw | hw
    · cases hp.symm.trans hw
    · cases hw
  | issue _ _ _ hp' _ _ => cases hp.symm.trans hp'
  | answer rm' _ v' _ hi _ hv =>
    cases hi
    cases hv
    exact ⟨rm, iters, rfl, rfl⟩

/-! ### Every event -/

theorem State.Inv.event {e : Event} (h : s.Inv) (he : StepEffect s e t) : t.Inv := by
  cases he with
  | idle _ => exact h
  | command f i t hf hd he => exact h.command hf hd he
  | unasked v _ => exact h
  | answered v b f i t hf hd hp he =>
    obtain ⟨rm, iters, rfl, rfl⟩ := h.answered hf hd hp he
    exact h.answerRound hf hd ((State.pending_of_inflight hf).symm.trans hp) v
  | closedRead index q j _ _ => exact h.violate.withReadData _
  | read index => exact h.withReadData _
  | cmdDropped w _ => exact h.violate
  | cmdIllegal w r hr _ => exact h.takeIllegal hr w
  | cmdTaken w i hr hd => exact h.take hr hd
  | statusWrite d => exact h.writeStatus d
  | softReset d _ => exact h.softReset
  | ctrlIgnored d _ => exact h
  | closedWrite index d q j _ _ => exact h.violate
  | openWrite index d q j hl hb => exact h.setWord hb q (eq_windowIndex_of_locate hl).1 d
  | ignoredWrite index d _ => exact h
  | hardReset => exact h.hardReset

theorem State.Inv.step (h : s.Inv) (hs : step s = .next t) : t.Inv :=
  (h.scripted s.script.tail).event (step_effect hs)

theorem State.Inv.runSteps {k : Nat} (h : s.Inv) (hr : runSteps k s = .next t) : t.Inv := by
  induction k generalizing s with
  | zero => cases hr; exact h
  | succ k ih =>
    rw [Machine.runSteps] at hr
    split at hr
    · next u hu => exact ih (h.step hu) hr
    · cases hr
    · cases hr

end Sys2Proof.Machine
end

section
/-! PROOFS. The invariant holds after reset, after every step and so in every reachable state (O47, O48, O50). -/

namespace Sys2Proof.Machine

/-- Settles O48: `State.Inv.event` for each thing an event can do. -/
theorem stepKeepsInvariant : Obligations.StepKeepsInvariant := fun _ _ h hs => h.step hs

/-- Settles O47, at every width and so at the width of `State.reset`. -/
theorem resetMeetsInvariant : Obligations.ResetMeetsInvariant :=
  ⟨fun _ h1 h2 => .resetFor h1 h2, .resetFor (by decide) (by decide)⟩

/-- Settles O50, by induction on the number of steps. -/
theorem reachableStatesKeepStatusInvariants : Obligations.ReachableStatesKeepStatusInvariants := by
  intro n k events t h1 h2 hr
  have h : t.Inv := ((State.Inv.resetFor h1 h2).scripted events).runSteps hr
  refine ⟨h.busy_flags, h.err_flags, h.no_err, ?_, fun f hf _ => (h.flight f hf).1.symm⟩
  rw [h.busy_iff, Option.isSome_iff_ne_none]

end Sys2Proof.Machine
end

section
/-! SUPPORT. For each flag, for the registers and for the width: the events whose effect can change it. -/

namespace Sys2Proof.Machine

variable {i : Instr} {s t : State} {e : Event}

/-! ### Width and BUSY -/

theorem StepEffect.nwords_kept (h : StepEffect s e t) : t.nwords = s.nwords := by
  cases h with
  | command f i t hf hd he => exact he.frame.1
  | answered v b f i t hf hd hp he => exact he.frame.1
  | hardReset => exact State.hardReset_nwords s
  | _ => rfl

/-- No engine step sets BUSY. -/
theorem ExecEffect.busy_of_busy (h : ExecEffect i s t) (ht : t.status.busy = true) : s.status.busy = true := by
  rcases h.ends_or_continues with ⟨-, hb, -⟩ | ⟨hst, -⟩
  · cases hb.symm.trans ht
  · exact hst ▸ ht

theorem StepEffect.busy_set (h : StepEffect s e t) (hs : s.status.busy = false) (ht : t.status.busy = true) :
    ∃ w i, e = .hostWrite 0 w ∧ decode w = .ok i ∧ s.status.err = false := by
  cases h with
  | command f i t hf hd he => cases hs.symm.trans (he.busy_of_busy ht)
  | answered v b f i t hf hd hp he => cases hs.symm.trans (he.busy_of_busy ht)
  | cmdTaken w i hr hd => exact ⟨w, i, rfl, hd, (State.ready_iff.mp hr).2⟩
  | _ => exact absurd ht (by simp [hs])

/-- An engine step that clears BUSY ends the command. -/
theorem ExecEffect.ends_of_busy_cleared (h : ExecEffect i s t) (hs : s.status.busy = true)
    (ht : t.status.busy = false) : t.inflight = none ∧ t.status.done = true := by
  rcases h.ends_or_continues with ⟨hf, -, hd⟩ | ⟨hst, -⟩
  · exact ⟨hf, hd⟩
  · cases hs.symm.trans (hst ▸ ht)

theorem StepEffect.busy_cleared (h : StepEffect s e t) (hs : s.status.busy = true) (ht : t.status.busy = false) :
    e.resets = true ∨ (e = .engine ∨ ∃ v, e = .rngAnswer v) ∧ s.inflight ≠ none ∧ t.inflight = none ∧
      t.status.done = true := by
  cases h with
  | command f i t hf hd he => exact .inr ⟨.inl rfl, by simp [hf], he.ends_of_busy_cleared hs ht⟩
  | answered v b f i t hf hd hp he => exact .inr ⟨.inr ⟨v, rfl⟩, by simp [hf], he.ends_of_busy_cleared hs ht⟩
  | softReset d hd => exact .inl hd
  | hardReset => exact .inl rfl
  | _ => exact absurd ht (by simp [hs])

/-- While BUSY = 1 a host write that is no soft reset leaves the command and the registers (R25). -/
theorem StepEffect.hostWrite_while_busy {index : Nat} {d : Word} (h : StepEffect s (.hostWrite index d) t)
    (hs : s.status.busy = true) (hr : (Event.hostWrite index d).resets = false) :
    t.inflight = s.inflight ∧ t.lastCmd = s.lastCmd ∧ t.regs = s.regs := by
  cases h with
  | cmdIllegal w r hready hd => cases hs.symm.trans (State.ready_iff.mp hready).1
  | cmdTaken w i hready hd => cases hs.symm.trans (State.ready_iff.mp hready).1
  | softReset d hd => cases hr.symm.trans hd
  | openWrite index d q j hl hb => cases hs.symm.trans hb
  | _ => exact ⟨rfl, rfl, rfl⟩

/-! ### DONE -/

/-- No engine step clears DONE. -/
theorem ExecEffect.done_of_done (h : ExecEffect i s t) (hs : s.status.done = true) : t.status.done = true := by
  rcases h.ends_or_continues with ⟨-, -, hd⟩ | ⟨hst, -⟩
  · exact hd
  · exact hst ▸ hs

theorem StepEffect.done_cleared (h : StepEffect s e t) (hs : s.status.done = true) (ht : t.status.done = false) :
    e.resets = true ∨
      ∃ w i, e = .hostWrite 0 w ∧ decode w = .ok i ∧ s.status.busy = false ∧ s.status.err = false := by
  cases h with
  | command f i t hf hd he => cases (he.done_of_done hs).symm.trans ht
  | answered v b f i t hf hd hp he => cases (he.done_of_done hs).symm.trans ht
  | cmdTaken w i hr hd => exact .inr ⟨w, i, rfl, hd, State.ready_iff.mp hr⟩
  | softReset d hd => exact .inl hd
  | hardReset => exact .inl rfl
  | _ => exact absurd ht (by simp [hs])

/-- An engine step that sets DONE ends the command. -/
theorem ExecEffect.ends_of_done_set (h : ExecEffect i s t) (hs : s.status.done = false) (ht : t.status.done = true) :
    t.inflight = none := by
  rcases h.ends_or_continues with ⟨hf, -, -⟩ | ⟨hst, -⟩
  · exact hf
  · cases hs.symm.trans (hst ▸ ht)

theorem StepEffect.done_set (h : StepEffect s e t) (hs : s.status.done = false) (ht : t.status.done = true) :
    s.inflight ≠ none ∧ t.inflight = none ∨
      ∃ w r, e = .hostWrite 0 w ∧ decode w = .error r ∧ t.status.ecode = 0x01 := by
  cases h with
  | command f i t hf hd he => exact .inl ⟨by simp [hf], he.ends_of_done_set hs ht⟩
  | answered v b f i t hf hd hp he => exact .inl ⟨by simp [hf], he.ends_of_done_set hs ht⟩
  | cmdIllegal w r hr hd => exact .inr ⟨w, r, rfl, hd, rfl⟩
  | _ => exact absurd ht (by simp [hs])

/-! ### ERR, PRIME and HVIOL -/

theorem StepEffect.err_kept (h : StepEffect s e t) (hinv : s.Inv) (hs : s.status.err = true)
    (hc : e.clearsStatusBit 2 = false) (hr : e.resets = false) :
    t.status.err = true ∧ t.status.ecode = s.status.ecode ∧ t.inflight = none ∧ t.lastCmd = s.lastCmd := by
  obtain ⟨-, hidle⟩ := hinv.idle_of_err hs
  cases h with
  | command f i t hf hd he => cases hidle.symm.trans hf
  | answered v b f i t hf hd hp he => cases hidle.symm.trans hf
  | cmdIllegal w r hready hd => cases hs.symm.trans (State.ready_iff.mp hready).2
  | cmdTaken w i hready hd => cases hs.symm.trans (State.ready_iff.mp hready).2
  | statusWrite d =>
    have hd : d.getLsbD 2 = false := hc
    exact ⟨by rw [State.writeStatus_status, Status.writeClear_err, hd]; exact hs,
      by rw [State.writeStatus_status, Status.writeClear_ecode, hd]; rfl, hidle, rfl⟩
  | softReset d hd => cases hr.symm.trans hd
  | hardReset => cases hr
  | _ => exact ⟨hs, rfl, hidle, rfl⟩

theorem StepEffect.prime_changed (h : StepEffect s e t) (hne : t.status.prime ≠ s.status.prime) :
    e.resets = true ∧ t.status.prime = false ∨
      ∃ f i, s.inflight = some f ∧ decode f.word = .ok i ∧ destOf i = none ∧ t.inflight = none ∧
        t.status.done = true ∧ t.status.err = s.status.err := by
  cases h with
  | command f i t hf hd he => exact .inr ⟨f, i, hf, hd, he.prime_kept_or_written.resolve_left hne⟩
  | answered v b f i t hf hd hp he => exact .inr ⟨f, i, hf, hd, he.prime_kept_or_written.resolve_left hne⟩
  | softReset d hd => exact .inl ⟨hd, rfl⟩
  | hardReset => exact .inl ⟨rfl, rfl⟩
  | _ => exact absurd rfl hne

theorem StepEffect.hviol_set (h : StepEffect s e t) (hs : s.status.hviol = false) (ht : t.status.hviol = true) :
    (∃ w, e = .hostWrite 0 w ∧ (s.status.busy = true ∨ s.status.err = true)) ∨
      ∃ i j index, locate s.nwords index = .operand i j ∧ s.status.busy = true ∧
        (e = .hostRead index ∨ ∃ d, e = .hostWrite index d) := by
  cases h with
  | command f i t hf hd he =>
    obtain ⟨-, -, hv, -⟩ := he.frame
    cases (hv.trans hs).symm.trans ht
  | answered v b f i t hf hd hp he =>
    obtain ⟨-, -, hv, -⟩ := he.frame
    cases (hv.trans hs).symm.trans ht
  | closedRead index q j hl hb => exact .inr ⟨q, j, index, hl, hb, .inl rfl⟩
  | closedWrite index d q j hl hb => exact .inr ⟨q, j, index, hl, hb, .inr ⟨d, rfl⟩⟩
  | cmdDropped w hr => exact .inl ⟨w, rfl, State.not_ready_iff.mp hr⟩
  | _ => exact absurd ht (by simp [hs])

theorem StepEffect.hviol_cleared (h : StepEffect s e t) (hs : s.status.hviol = true) (ht : t.status.hviol = false) :
    e.clearsStatusBit 4 = true ∨ e.resets = true := by
  cases h with
  | command f i t hf hd he =>
    obtain ⟨-, -, hv, -⟩ := he.frame
    cases (hv.trans hs).symm.trans ht
  | answered v b f i t hf hd hp he =>
    obtain ⟨-, -, hv, -⟩ := he.frame
    cases (hv.trans hs).symm.trans ht
  | statusWrite d =>
    refine .inl (by_contra fun (hd : ¬ d.getLsbD 4 = true) => ?_)
    rw [State.writeStatus_status, Status.writeClear_hviol, if_neg hd] at ht
    cases hs.symm.trans ht
  | softReset d hd => exact .inr hd
  | hardReset => exact .inr rfl
  | _ => exact absurd ht (by simp [hs])

/-! ### Operand registers -/

theorem StepEffect.x_changed {r : RegNo} (h : StepEffect s e t) (hinv : s.Inv) (hne : t.x r ≠ s.x r) :
    (∃ f i, s.inflight = some f ∧ decode f.word = .ok i ∧ destOf i = some r ∧ e = .engine ∧ t.inflight = none ∧
      t.status.err = false) ∨
    (∃ j d, j < s.nwords ∧ e = .hostWrite (windowIndex s.nwords r j) d ∧ s.status.busy = false) ∨
    e = .hardReset := by
  cases h with
  | command f i t hf hd he =>
    rcases he.regs_kept_or_result with hr | ⟨rd, v, hdest, rfl⟩
    · exact absurd (State.x_congr hr r) hne
    · obtain rfl : r = rd := by_contra fun hr => hne (by rw [State.finishWith_x, if_neg hr])
      exact .inl ⟨f, i, hf, hd, hdest, rfl, rfl, (hinv.flags_in_flight hf).2.1⟩
  | answered v b f i t hf hd hp he =>
    obtain ⟨rm, iters, -, rfl⟩ := hinv.answered hf hd hp he
    exact absurd (State.x_congr (State.answerRound_regs s _ v) r) hne
  | openWrite index d q j hl hb =>
    obtain rfl : r = q := by_contra fun hr => hne (by rw [State.setX_x, if_neg hr])
    obtain ⟨hj, rfl⟩ := eq_windowIndex_of_locate hl
    exact .inr (.inl ⟨j, d, hj, rfl, hb⟩)
  | hardReset => exact .inr (.inr rfl)
  | _ => exact absurd rfl hne

end Sys2Proof.Machine
end

section
/-! PROOFS. What sets, clears and changes each part of the state (O51 to O55). -/

namespace Sys2Proof.Machine

/-- Settles O51: by the effects of a step that touch BUSY. -/
theorem busyIsSetAndClearedOnlyBy : Obligations.BusyIsSetAndClearedOnlyBy :=
  ⟨fun _ _ h hs ht => (step_effect h).busy_set hs ht, fun _ _ h hs ht => (step_effect h).busy_cleared hs ht,
    fun _ _ _ _ h hs he hr => (he ▸ step_effect h).hostWrite_while_busy hs (he ▸ hr)⟩

/-- Settles O52: by the effects of a step that touch DONE. -/
theorem doneIsSetAndClearedOnlyBy : Obligations.DoneIsSetAndClearedOnlyBy :=
  ⟨fun _ _ h hs ht => (step_effect h).done_cleared hs ht, fun _ _ h hs ht => (step_effect h).done_set hs ht⟩

/-- Settles O53: with ERR = 1 the unit is idle, and only a STATUS write or a reset touches ERR. -/
theorem errIsSticky : Obligations.ErrIsSticky :=
  fun s _ hinv h hs hc hr => (step_effect h).err_kept (hinv.scripted s.script.tail) hs hc hr

/-- Settles O54: by the effects of a step that touch PRIME. -/
theorem primeIsWrittenOnlyBy : Obligations.PrimeIsWrittenOnlyBy :=
  fun _ _ h hne => (step_effect h).prime_changed hne

/-- Settles O55: by the effects of a step that touch a register; an answer to an MRTEST is none of them. -/
theorem operandRegistersChangeOnlyBy : Obligations.OperandRegistersChangeOnlyBy :=
  fun s _ _ hinv h hne => (step_effect h).x_changed (hinv.scripted s.script.tail) hne

end Sys2Proof.Machine
end

section
/-! SUPPORT. The step that a host access is, one rule for each register of the map; the bits of STATUS and the fields of
PARAM. -/

namespace Sys2Proof.Machine

variable {s : State} {rest : List Event}

/-! ### Steps of the host -/

/-- A read that is not one of the closed window returns the word and changes nothing else (R57). -/
theorem step_hostRead {index : Nat} (h : s.script = .hostRead index :: rest)
    (hw : (inWindow s.nwords index && s.status.busy) = false) :
    step s = .next { s with script := rest, readData := s.peekWord index } := by
  rw [step_cons h]
  simp only [perform, State.hostRead, hw]
  rfl

/-- A read in the window while BUSY = 1 returns 0 and sets HVIOL (R29, R56). -/
theorem step_hostRead_closed {index : Nat} (h : s.script = .hostRead index :: rest)
    (hw : (inWindow s.nwords index && s.status.busy) = true) :
    step s = .next { s with script := rest, readData := 0, status := { s.status with hviol := true } } := by
  rw [step_cons h]
  simp only [perform, State.hostRead, hw]
  rfl

/-- A CMD write while BUSY or ERR is 1 (R30, first case). -/
theorem step_cmdWrite_dropped {w : Word} (h : s.script = .hostWrite 0 w :: rest)
    (hbe : s.status.busy = true ∨ s.status.err = true) :
    step s = .next { s with script := rest, status := { s.status with hviol := true } } := by
  have hcmd : State.writeCmd { s with script := rest } w = State.violate { s with script := rest } :=
    if_pos (by simpa using hbe)
  exact (step_cons h).trans (congrArg _ hcmd)

/-- A CMD write of an illegal word (R30, second case). -/
theorem step_cmdWrite_illegal {w : Word} {r : Illegal} (h : s.script = .hostWrite 0 w :: rest)
    (hb : s.status.busy = false) (he : s.status.err = false) (hd : decode w = .error r) :
    step s = .next { s with
      script := rest
      lastCmd := w
      status := { s.status with done := true, err := true, ecode := 0x01 } } := by
  have hcmd : State.writeCmd { s with script := rest } w = State.takeIllegal { s with script := rest } w := by
    simp [State.writeCmd, hb, he, hd]
  exact (step_cons h).trans (congrArg _ hcmd)

/-- A CMD write of a legal word (R30, third case). -/
theorem step_cmdWrite_legal {w : Word} {i : Instr} (h : s.script = .hostWrite 0 w :: rest)
    (hb : s.status.busy = false) (he : s.status.err = false) (hd : decode w = .ok i) :
    step s = .next { s with
      script := rest
      lastCmd := w
      status := { s.status with busy := true, done := false }
      inflight := some { word := w, round := 0, pending := none } } := by
  have hcmd : State.writeCmd { s with script := rest } w = State.take { s with script := rest } w := by
    simp [State.writeCmd, hb, he, hd]
  exact (step_cons h).trans (congrArg _ hcmd)

theorem step_ctrlWrite {d : Word} (h : s.script = .hostWrite 2 d :: rest) :
    step s = .next (State.writeCtrl { s with script := rest } d) := step_cons h

theorem step_windowWrite {index j : Nat} {q : RegNo} {d : Word} (h : s.script = .hostWrite index d :: rest)
    (hl : locate s.nwords index = .operand q j) :
    step s = .next (State.writeOperand { s with script := rest } q j d) := by
  rw [step_cons h, perform, State.hostWrite, hl]

/-- A write in the closed window (R29, R56). -/
theorem step_windowWrite_closed {index j : Nat} {q : RegNo} {d : Word} (h : s.script = .hostWrite index d :: rest)
    (hl : locate s.nwords index = .operand q j) (hb : s.status.busy = true) :
    step s = .next { s with script := rest, status := { s.status with hviol := true } } :=
  (step_windowWrite h hl).trans (congrArg _ (if_pos hb))

/-- A write in the open window (R56). -/
theorem step_windowWrite_open {index j : Nat} {q : RegNo} {d : Word} (h : s.script = .hostWrite index d :: rest)
    (hl : locate s.nwords index = .operand q j) (hb : s.status.busy = false) :
    step s = .next { s with script := rest, regs := s.regs.set q (replaceWord (s.x q) j d) } :=
  (step_windowWrite h hl).trans (congrArg _ (if_neg (ne_true_of_eq_false hb)))

/-- The engine's turn runs the command in flight (R36). -/
theorem step_engine {f : Inflight} {i : Instr} (h : s.script = .engine :: rest) (hf : s.inflight = some f)
    (hd : decode f.word = .ok i) : step s = exec i { s with script := rest } :=
  (step_cons h).trans (engineTurn_decoded hf hd)

/-! ### Runs -/

theorem runSteps_succ {t : State} (k : Nat) (h : step s = .next t) : runSteps (k + 1) s = runSteps k t := by
  rw [runSteps, h]

theorem runSteps_one (s : State) : runSteps 1 s = step s := by
  cases h : step s <;> simp [runSteps, h]

/-! ### STATUS and PARAM as words -/

theorem Status.clear_toWord : Status.clear.toWord = 0x00000000 := rfl

/-- The low byte of STATUS: the five flags at bits 0 to 4. -/
def Status.flagsByte (f : Status) : Nat :=
  flagBit f.busy + 2 * flagBit f.done + 4 * flagBit f.err + 8 * flagBit f.prime + 16 * flagBit f.hviol

theorem flagBit_le (b : Bool) : flagBit b ≤ 1 := by cases b <;> decide

theorem Status.flagsByte_lt (f : Status) : f.flagsByte < 2 ^ 5 := by
  have := flagBit_le f.busy
  have := flagBit_le f.done
  have := flagBit_le f.err
  have := flagBit_le f.prime
  have := flagBit_le f.hviol
  unfold Status.flagsByte; omega

theorem flagBit_testBit : ∀ b0 b1 b2 b3 b4 : Bool,
    let n := flagBit b0 + 2 * flagBit b1 + 4 * flagBit b2 + 8 * flagBit b3 + 16 * flagBit b4
    n.testBit 0 = b0 ∧ n.testBit 1 = b1 ∧ n.testBit 2 = b2 ∧ n.testBit 3 = b3 ∧ n.testBit 4 = b4 := by decide

theorem Status.flagsByte_testBit (f : Status) :
    f.flagsByte.testBit 0 = f.busy ∧ f.flagsByte.testBit 1 = f.done ∧ f.flagsByte.testBit 2 = f.err ∧
      f.flagsByte.testBit 3 = f.prime ∧ f.flagsByte.testBit 4 = f.hviol := flagBit_testBit _ _ _ _ _

/-- STATUS has its flags in the low byte, ECODE in the next and zeros above (R24). -/
theorem Status.toWord_getLsbD (f : Status) (b : Nat) :
    f.toWord.getLsbD b = if b < 8 then f.flagsByte.testBit b else f.ecode.getLsbD (b - 8) := by
  have hlow : f.flagsByte < 2 ^ 8 := lt_trans f.flagsByte_lt (by decide)
  have hword : f.toWord = BitVec.ofNat 32 (2 ^ 8 * f.ecode.toNat + f.flagsByte) := by
    rw [Nat.add_comm]; rfl
  rw [hword, BitVec.getLsbD_ofNat, Nat.testBit_two_pow_mul_add _ hlow, BitVec.testBit_toNat]
  split
  · next h => simp [show b < 32 by omega]
  · next h =>
    by_cases h32 : b < 32
    · simp [h32]
    · simp [h32, BitVec.getLsbD_of_ge f.ecode (b - 8) (by omega)]

theorem paramWord_fields {n : Nat} (hn : n ≤ 65535) :
    (paramWord n).toNat % 2 ^ 16 = n ∧ (paramWord n).toNat / 2 ^ 16 % 2 ^ 8 = 16 ∧
      (paramWord n).toNat / 2 ^ 24 = 1 := by
  have hp : (paramWord n).toNat = 2 ^ 24 + 16 * 2 ^ 16 + n := by
    simp only [paramWord, Config.version, Config.nreg, BitVec.toNat_ofNat]
    omega
  rw [hp]
  omega

/-- PARAM shows the width and nothing else of the state. -/
theorem State.peekWord_param (s : State) : s.peekWord 3 = paramWord s.nwords := rfl

theorem State.peekWord_param_congr {s t : State} (h : t.nwords = s.nwords) : t.peekWord 3 = s.peekWord 3 := by
  rw [State.peekWord_param, State.peekWord_param, h]

/-- A STATUS write in the spelling of R33's clearing: a bit of the word set clears. -/
theorem Status.writeClear_eq (f : Status) (d : Word) :
    f.writeClear d = { f with
      err := f.err && !d.getLsbD 2
      ecode := if d.getLsbD 2 then 0x00 else f.ecode
      hviol := f.hviol && !d.getLsbD 4 } := by
  unfold Status.writeClear
  cases d.getLsbD 2 <;> cases d.getLsbD 4 <;> simp

end Sys2Proof.Machine
end

section
/-! PROOFS. The resets and the host's registers (O8, O9, O12 to O15, O19). -/

namespace Sys2Proof.Machine

/-- Settles O8: the cleared control state is the table's, and PARAM shows only the width. -/
theorem resetsLeaveTheStateOfTheTable : Obligations.ResetsLeaveTheStateOfTheTable := by
  refine ⟨fun n => ⟨rfl, rfl, rfl, rfl, Status.clear_toWord⟩, fun s t rest hs h => ?_, fun s t rest hs h => ?_⟩
  · cases (step_cons hs).symm.trans h
    refine ⟨rfl, rfl, rfl, rfl, Status.clear_toWord, rfl, State.peekWord_param_congr (State.hardReset_nwords _),
      fun r => ?_⟩
    rw [State.hardReset_x]
    exact Nat.mod_lt _ (Nat.two_pow_pos _)
  · cases (step_ctrlWrite hs).symm.trans h
    exact ⟨rfl, rfl, rfl, rfl, Status.clear_toWord, rfl, rfl, fun r => rfl⟩

/-- Settles O9: a CTRL write is the soft reset or nothing, by bit 0. -/
theorem ctrlWriteIsSoftReset : Obligations.CtrlWriteIsSoftReset := by
  refine fun s rest => ⟨fun d h hd => ?_, fun d h hd => ?_, fun h => step_hostRead h rfl⟩
  · exact (step_ctrlWrite h).trans (congrArg _ (if_pos hd))
  · exact (step_ctrlWrite h).trans (congrArg _ (if_neg (ne_true_of_eq_false hd)))

/-- Settles O12: the word read is `Status.toWord`, of which every bit is known. -/
theorem statusReadsItsFields : Obligations.StatusReadsItsFields := by
  intro s rest h
  obtain ⟨h0, h1, h2, h3, h4⟩ := s.status.flagsByte_testBit
  have hzero : ∀ b, 5 ≤ b → s.status.flagsByte.testBit b = false := fun b hb =>
    Nat.testBit_lt_two_pow (lt_of_lt_of_le s.status.flagsByte_lt (Nat.pow_le_pow_right (by decide) hb))
  refine ⟨s.status.toWord, step_hostRead h rfl, ?_⟩
  simp only [Status.toWord_getLsbD]
  refine ⟨h0, h1, h2, h3, h4, fun b hb => ?_, hzero 5 le_rfl, hzero 6 (by decide), hzero 7 (by decide),
    fun b hb => ?_⟩
  · rw [if_neg (by omega), Nat.add_sub_cancel_left]
  · rw [if_neg (by omega)]
    exact BitVec.getLsbD_of_ge _ _ (by omega)

/-- Settles O13: one rule for each case of a CMD write. -/
theorem cmdWriteDoesOneOfThree : Obligations.CmdWriteDoesOneOfThree := by
  refine fun s w rest => ⟨fun h => step_hostRead h rfl, fun h => ⟨fun hbe => ?_, fun hb he r hd => ?_, ?_⟩⟩
  · exact step_cmdWrite_dropped h hbe
  · exact step_cmdWrite_illegal h hb he hd
  · exact fun hb he i hd => step_cmdWrite_legal h hb he hd

/-- Settles O14: the model's clearing in R33's spelling. -/
theorem statusWriteOneToClear : Obligations.StatusWriteOneToClear := by
  intro s d rest h
  rw [step_cons h, ← Status.writeClear_eq]
  rfl

/-- Settles O15: PARAM shows only the width, which every effect of a step keeps. -/
theorem paramIsConstant : Obligations.ParamIsConstant := by
  refine ⟨fun s rest _ hn h => ⟨paramWord s.nwords, step_hostRead h rfl, paramWord_fields hn⟩,
    fun s d rest h => step_cons h, fun s hn => ?_, fun s t h => ?_⟩
  · rw [State.peekWord_param, hn]; rfl
  · exact State.peekWord_param_congr (step_effect h).nwords_kept

/-- Settles O19: by the effects of a step that touch HVIOL, and the rules of the ignored accesses. -/
theorem hviolSetExactlyByIgnoredAccesses : Obligations.HviolSetExactlyByIgnoredAccesses := by
  refine ⟨fun s t h hs ht => (step_effect h).hviol_set hs ht, fun s t h hs ht => (step_effect h).hviol_cleared hs ht,
    fun s i j rest hj hb => ?_⟩
  have hl := locate_windowIndex i hj
  have hw : (inWindow s.nwords (windowIndex s.nwords i j) && s.status.busy) = true := by
    rw [(inWindow_iff _ _).mpr ⟨i, j, hl⟩, hb]; rfl
  exact ⟨fun h => step_hostRead_closed h hw, fun d h => step_windowWrite_closed h hl hb,
    fun w h => step_cmdWrite_dropped h (.inl hb)⟩

end Sys2Proof.Machine
end

section
/-! SUPPORT. LOAD word by word. -/

namespace Sys2Proof.Machine

/-- Replacing word `k` of a value that has the first `k` words of `v` by word `k` of `v` gives it one more. -/
theorem wordOf_replaceWord_lower_words {u v k : Nat} (h : ∀ j < k, wordOf u j = wordOf v j) :
    ∀ j < k + 1, wordOf (replaceWord u k (wordOf v k)) j = wordOf v j := by
  intro j hj
  rw [wordOf_replaceWord]
  split
  · next hjk => rw [hjk]
  · next hjk => exact h j (by omega)

theorem State.regs_set_x (s : State) (r : RegNo) : s.regs.set r (s.x r) = s.regs := by
  simp [State.x, Vector.get_eq_getElem]

theorem State.x_set_same (s : State) (r : RegNo) (v : Nat) : State.x { s with regs := s.regs.set r v } r = v :=
  (State.setX_x s r r v).trans (if_pos rfl)

/-- The last `m` writes of LOAD, on a register that already has the words below them. -/
theorem runSteps_load_tail (m : Nat) {k : Nat} {s : State} {r : RegNo} {v : Nat} {rest : List Event}
    (hkm : k + m = s.nwords) (hb : s.status.busy = false) (hx : s.x r < 2 ^ (32 * s.nwords))
    (hv : v < 2 ^ (32 * s.nwords)) (hlow : ∀ j < k, wordOf (s.x r) j = wordOf v j)
    (hs : s.script = (List.range' k m).map (fun j => .hostWrite (windowIndex s.nwords r j) (wordOf v j)) ++ rest) :
    runSteps m s = .next { s with script := rest, regs := s.regs.set r v } := by
  induction m generalizing k s with
  | zero =>
    have hxv : s.x r = v := eq_of_words_eq hx hv (by rwa [← hkm])
    rw [runSteps, ← hxv, State.regs_set_x, ← show s.script = rest from hs]
  | succ m ih =>
    rw [List.range'_succ, List.map_cons, List.cons_append] at hs
    have hk : k < s.nwords := by omega
    rw [runSteps_succ m (step_windowWrite_open hs (locate_windowIndex r hk) hb)]
    have hset := State.x_set_same s r (replaceWord (s.x r) k (wordOf v k))
    rw [ih (k := k + 1)]
    · simp
    · exact (Nat.succ_add_eq_add_succ k m).trans hkm
    · exact hb
    · exact hset.trans_lt (replaceWord_lt _ hx hk)
    · exact hv
    · exact fun j hj => (congrArg (wordOf · j) hset).trans (wordOf_replaceWord_lower_words hlow j hj)
    · rfl

end Sys2Proof.Machine
end

section
/-! PROOFS. How a command comes to run, and LOAD (O21 to O24). -/

namespace Sys2Proof.Machine

/-- Settles O21: by induction on the words still to write, those below being the value's already. -/
theorem loadSetsTheRegister : Obligations.LoadSetsTheRegister := by
  intro s r v rest hb hx hv hs
  rw [loadEvents, List.range_eq_range'] at hs
  exact runSteps_load_tail s.nwords (Nat.zero_add _) hb hx hv (fun j hj => by omega) hs

/-- Settles O22: an engine step decodes the word in flight. -/
theorem stepRunsTheDecodedCommand : Obligations.StepRunsTheDecodedCommand := by
  intro s f i rest hf hd
  refine ⟨fun h => ?_, fun h => ?_, fun b v hp h => ?_⟩
  · exact step_engine h hf hd
  · exact (step_nil h).trans (engineTurn_decoded hf hd)
  · have hpend : State.pending { s with script := rest } = some b := (State.pending_of_inflight hf).trans hp
    exact ((step_cons h).trans (rngTurn_asked v hpend)).trans (engineTurn_decoded hf hd)

theorem decode_tableWord_of_decodeTableWord {nbits w : Nat} {i : Instr} (h : decodeTableWord nbits w = some i) :
    decode (tableWord nbits w) = .ok i := by
  unfold decodeTableWord at h
  split at h
  · next j hj => cases h; exact hj
  · cases h

/-- Settles O23: the placed word is in flight and the engine's turn is next. -/
theorem fetchedWordIsRunNext : Obligations.FetchedWordIsRunNext := fun s nbits w _ h =>
  step_engine (rest := s.script) (f := { word := tableWord nbits w, round := 0, pending := none }) rfl rfl
    (decode_tableWord_of_decodeTableWord h)

/-- The encoding of a well-formed command decodes to it: the per-command laws in one. -/
theorem decode_encode {i : Instr} (h : i.wellFormed = true) : decode (encode i) = .ok i := by
  cases i with
  | mulmod rd rs1 rs2 rm => exact Laws.DecodeEncode.mulmod rd rs1 rs2 rm h
  | montmul rd rs1 rs2 rm => exact Laws.DecodeEncode.montmul rd rs1 rs2 rm h
  | montr2 rd rm => exact Laws.DecodeEncode.montr2 rd rm h
  | powmod rd rs1 rs2 rm => exact Laws.DecodeEncode.powmod rd rs1 rs2 rm h
  | gcd rd rs1 rs2 => exact Laws.DecodeEncode.gcd rd rs1 rs2 h
  | modinv rd rs1 rm => exact Laws.DecodeEncode.modinv rd rs1 rm h
  | lambda rd rs1 rs2 => exact Laws.DecodeEncode.lambda rd rs1 rs2 h
  | mrround rs1 rm => exact Laws.DecodeEncode.mrround rs1 rm h
  | mrtest rm iters => exact Laws.DecodeEncode.mrtest rm iters h

/-- Settles O24: the CMD write takes the word, which decodes to the command it encodes. -/
theorem issuedCommandIsExecuted : Obligations.IssuedCommandIsExecuted := by
  intro s i rest hwf hb he hs
  have hd := decode_encode hwf
  rw [runSteps_succ 1 (step_cmdWrite_legal hs hb he hd), runSteps_one]
  exact step_engine (f := { word := encode i, round := 0, pending := none }) rfl rfl hd

end Sys2Proof.Machine
end

section
/-! SUPPORT. Two states that differ in HVIOL, and in the word of the last read, behave alike (R29). -/

namespace Sys2Proof.Machine

variable {s t : State}

/-- The state with this HVIOL. -/
def State.withHviol (s : State) (b : Bool) : State := { s with status := { s.status with hviol := b } }

/-- The state without its HVIOL and the word of its last read. -/
def State.hideHviol (s : State) : State := { s.withHviol false with readData := 0 }

@[simp] theorem State.withHviol_nwords (s : State) (b : Bool) : (s.withHviol b).nwords = s.nwords := rfl
@[simp] theorem State.withHviol_busy (s : State) (b : Bool) : (s.withHviol b).status.busy = s.status.busy := rfl
@[simp] theorem State.withHviol_err (s : State) (b : Bool) : (s.withHviol b).status.err = s.status.err := rfl

theorem Action.apply_withHviol (a : Action) (s : State) (b : Bool) :
    a.apply (s.withHviol b) = (a.apply s).withHviol b := by
  cases a with
  | answer n v =>
    simp only [Action.apply, State.answerRound]
    split_ifs <;> rfl
  | _ => rfl

theorem exec_withHviol {i : Instr} (b : Bool) (h : exec i s = .next t) :
    exec i (s.withHviol b) = .next (t.withHviol b) := by
  obtain ⟨a, -, hs, hu⟩ := exec_same_action (i := i) (s := s) (u := s.withHviol b) ⟨rfl, rfl, rfl, fun _ _ => rfl⟩
  cases hs.symm.trans h
  rw [hu, a.apply_withHviol]

theorem engineTurn_withHviol (b : Bool) (h : engineTurn s = .next t) :
    engineTurn (s.withHviol b) = .next (t.withHviol b) := by
  cases hf : s.inflight with
  | none =>
    cases (engineTurn_idle hf).symm.trans h
    exact engineTurn_idle hf
  | some f =>
    cases hd : decode f.word with
    | error r => simp [engineTurn, hf, hd] at h
    | ok i =>
      rw [engineTurn_decoded hf hd] at h
      exact (engineTurn_decoded (s := s.withHviol b) hf hd).trans (exec_withHviol b h)

theorem rngTurn_withHviol (v : Nat) (b : Bool) (h : rngTurn v s = .next t) :
    rngTurn v (s.withHviol b) = .next (t.withHviol b) := by
  cases hp : s.pending with
  | none =>
    cases (rngTurn_unasked v hp).symm.trans h
    exact rngTurn_unasked v hp
  | some n =>
    rw [rngTurn_asked v hp] at h
    exact (rngTurn_asked (s := s.withHviol b) v hp).trans (engineTurn_withHviol b h)

theorem State.writeCmd_withHviol (s : State) (b : Bool) (w : Word) :
    ((s.withHviol b).writeCmd w).hideHviol = (s.writeCmd w).hideHviol ∧
      ((s.withHviol b).writeCmd w).readData = (s.writeCmd w).readData := by
  simp only [State.writeCmd]
  rw [State.withHviol_busy, State.withHviol_err]
  split
  · exact ⟨rfl, rfl⟩
  · cases decode w <;> exact ⟨rfl, rfl⟩

theorem State.hostWrite_withHviol (s : State) (b : Bool) (index : Nat) (d : Word) :
    ((s.withHviol b).hostWrite index d).hideHviol = (s.hostWrite index d).hideHviol ∧
      ((s.withHviol b).hostWrite index d).readData = (s.hostWrite index d).readData := by
  unfold State.hostWrite
  rw [State.withHviol_nwords]
  cases locate s.nwords index with
  | cmd => exact s.writeCmd_withHviol b d
  | ctrl =>
    simp only [State.writeCtrl]
    split <;> exact ⟨rfl, rfl⟩
  | operand q j =>
    simp only [State.writeOperand]
    rw [State.withHviol_busy]
    split <;> exact ⟨rfl, rfl⟩
  | _ => exact ⟨rfl, rfl⟩

/-- No word but STATUS shows HVIOL. -/
theorem State.peekWord_withHviol (s : State) (b : Bool) {index : Nat} (h : locate s.nwords index ≠ .status) :
    (s.withHviol b).peekWord index = s.peekWord index := by
  unfold State.peekWord
  rw [State.withHviol_nwords]
  cases hl : locate s.nwords index with
  | status => exact absurd hl h
  | _ => rfl

theorem eq_one_of_locate_status {n index : Nat} (h : locate n index = .status) : index = 1 := by
  unfold locate at h
  split_ifs at h
  assumption

theorem State.hostRead_withHviol (s : State) (b : Bool) (index : Nat) :
    ((s.withHviol b).hostRead index).hideHviol = (s.hostRead index).hideHviol ∧
      (index ≠ 1 → ((s.withHviol b).hostRead index).readData = (s.hostRead index).readData) := by
  unfold State.hostRead
  rw [State.withHviol_nwords, State.withHviol_busy]
  split
  · exact ⟨rfl, fun _ => rfl⟩
  · exact ⟨rfl, fun h => s.peekWord_withHviol b fun hl => h (eq_one_of_locate_status hl)⟩

/-- HVIOL influences no event but a read of STATUS. -/
theorem perform_withHviol {e : Event} (b : Bool) (h : perform e s = .next t) :
    ∃ u, perform e (s.withHviol b) = .next u ∧ u.hideHviol = t.hideHviol ∧
      (e ≠ .hostRead 1 → u.readData = t.readData) := by
  cases e with
  | hostRead index =>
    cases h
    obtain ⟨hh, hr⟩ := s.hostRead_withHviol b index
    exact ⟨_, rfl, hh, fun hne => hr fun hi => hne (hi ▸ rfl)⟩
  | hostWrite index d =>
    cases h
    obtain ⟨hh, hr⟩ := s.hostWrite_withHviol b index d
    exact ⟨_, rfl, hh, fun _ => hr⟩
  | engine => exact ⟨_, engineTurn_withHviol b h, rfl, fun _ => rfl⟩
  | rngAnswer v => exact ⟨_, rngTurn_withHviol v b h, rfl, fun _ => rfl⟩
  | hardReset => cases h; exact ⟨_, rfl, rfl, fun _ => rfl⟩

end Sys2Proof.Machine
end

section
/-! PROOFS. HVIOL blocks nothing (O20). -/

namespace Sys2Proof.Machine

/-- Settles O20: each event commutes with a change of HVIOL, up to the word of a STATUS read. -/
theorem hviolBlocksNothing : Obligations.HviolBlocksNothing := by
  intro s t b h
  obtain ⟨u, hu, hh, hr⟩ := perform_withHviol b h
  have field {α : Type} (f : State → α) : f u.hideHviol = f t.hideHviol := congrArg f hh
  exact ⟨u, hu, field State.regs, field State.lastCmd, field State.inflight, field State.rngReply, field State.script,
    field State.nwords, field State.freeCount, field State.status, hr⟩

end Sys2Proof.Machine
end

section
/-! SUPPORT. The address map by byte address (R52, R53), the bytes of a word (R54), and what a read or write of a
reserved address does (R53). -/

namespace Sys2Proof.Machine

/-! ### Byte addresses -/

/-- R52's byte address of word `j` of `x[i]`, divided by 4, is its window index. -/
theorem windowAddr_div_four (n : Nat) (i : RegNo) (j : Nat) :
    (0x1000 + 4 * (i.val * n + j)) / 4 = windowIndex n i j := by
  unfold windowIndex Config.windowBase
  omega

/-- Both reserved ranges of R53, by byte address. -/
theorem locate_reserved {n index : Nat}
    (h : 0x0010 / 4 ≤ index ∧ index ≤ 0x0FFC / 4 ∨ (0x1000 + 64 * n) / 4 ≤ index) : locate n index = .reserved := by
  rcases h with ⟨hlo, hhi⟩ | hhigh
  · exact locate_reserved_low hlo (by omega)
  · exact locate_reserved_high (by omega)

/-! ### Reserved addresses -/

variable {s : State} {index : Nat}

theorem inWindow_reserved {n : Nat} (h : locate n index = .reserved) : inWindow n index = false := by
  rw [inWindow, h]

theorem State.peekWord_reserved (h : locate s.nwords index = .reserved) : s.peekWord index = 0x00000000 := by
  rw [State.peekWord, h]

theorem step_hostWrite_reserved {d : Word} {rest : List Event} (h : s.script = .hostWrite index d :: rest)
    (hl : locate s.nwords index = .reserved) : step s = .next { s with script := rest } := by
  rw [step_cons h, perform, State.hostWrite, hl]

/-! ### The operand window -/

theorem inWindow_windowIndex {n j : Nat} (i : RegNo) (hj : j < n) : inWindow n (windowIndex n i j) = true :=
  (inWindow_iff _ _).mpr ⟨i, j, locate_windowIndex i hj⟩

theorem State.peekWord_windowIndex (s : State) {j : Nat} (i : RegNo) (hj : j < s.nwords) :
    s.peekWord (windowIndex s.nwords i j) = wordOf (s.x i) j :=
  State.peekWord_operand (locate_windowIndex i hj)

/-- The bits of a replaced word in R56's spelling: those of `[32j+31 : 32j]` are the new word's, every other is kept. -/
theorem replaceWord_testBit_range (v j : Nat) (d : Word) (b : Nat) :
    (replaceWord v j d).testBit b =
      if 32 * j ≤ b ∧ b < 32 * j + 32 then d.getLsbD (b - 32 * j) else v.testBit b := by
  rw [replaceWord_testBit]
  by_cases hlo : b < 32 * j
  · rw [if_pos hlo, if_neg (by omega)]
  · simp only [hlo, not_lt.mp hlo, if_false, true_and]

/-! ### Bytes -/

theorem byteOf_getLsbD (w : Word) (k b : Nat) :
    (byteOf w k).getLsbD b = (decide (b < 8) && w.getLsbD (8 * k + b)) := by
  rw [byteOf, BitVec.getLsbD_ofNat, Nat.testBit_div_two_pow, BitVec.testBit_toNat, Nat.add_comm]

/-- Byte `k` of the word at a word index stands `k` bytes above its address (R54). -/
theorem State.peekByte_word (s : State) (index : Nat) {k : Nat} (hk : k < 4) :
    s.peekByte (4 * index + k) = byteOf (s.peekWord index) k := by
  rw [State.peekByte, show (4 * index + k) / 4 = index by omega, show (4 * index + k) % 4 = k by omega]

end Sys2Proof.Machine
end

section
/-! PROOFS. The address map, the reserved addresses, the operand window and its byte order (O11, O16 to O18). -/

namespace Sys2Proof.Machine

/-- Settles O11: each place of R52's table by the model's own map. -/
theorem addressMap : Obligations.AddressMap := by
  refine fun n _ => ⟨locate_cmd n, locate_status n, locate_ctrl n, locate_param n, fun index hlo hhi => ?_,
    fun i j hj => ?_, fun index h => ?_⟩
  · exact locate_reserved (.inl ⟨hlo, hhi⟩)
  · rw [windowAddr_div_four]
    exact locate_windowIndex i hj
  · exact locate_reserved (.inr h)

/-- Settles O16: a reserved address is outside the window, holds 0 and drops a write. -/
theorem reservedAddressesReadZero : Obligations.ReservedAddressesReadZero := by
  intro s index rest hidx
  have hl : locate s.nwords index = .reserved := locate_reserved hidx
  refine ⟨fun h => ?_, fun d h => ?_⟩
  · rw [step_hostRead h (by rw [inWindow_reserved hl]; rfl), State.peekWord_reserved hl]
  · exact step_hostWrite_reserved h hl

/-- Settles O17: one rule for each access of the closed and of the open window, and the bits of `wordOf` and
`replaceWord`. -/
theorem operandWindowReadsAndWrites : Obligations.OperandWindowReadsAndWrites := by
  intro s i j rest hj
  have hl := locate_windowIndex i hj
  have hw := inWindow_windowIndex i hj
  rw [windowAddr_div_four]
  refine ⟨fun h => ⟨fun hb => ?_, fun hb => ⟨wordOf (s.x i) j, ?_, fun b hb32 => ?_⟩⟩,
    fun d h => ⟨step_windowWrite_closed h hl, fun hb => ⟨_, step_windowWrite_open h hl hb, fun b => ?_⟩⟩⟩
  · exact step_hostRead_closed h (by rw [hw, hb]; rfl)
  · rw [step_hostRead h (by rw [hb, Bool.and_false]), s.peekWord_windowIndex i hj]
  · rw [wordOf_getLsbD, decide_eq_true hb32, Bool.true_and]
  · exact replaceWord_testBit_range (s.x i) j d b

/-- Settles O18: a value is the sum of its words, and byte `k` of a word its bits from `8k` on. -/
theorem littleEndianWordsAndBytes : Obligations.LittleEndianWordsAndBytes := by
  refine ⟨fun s i hx => ?_, fun s index k b hk hb => ?_⟩
  · calc s.x i = ∑ j ∈ Finset.range s.nwords, (wordOf (s.x i) j).toNat * 2 ^ (32 * j) :=
          value_eq_sum_words _ _ hx
      _ = _ := Finset.sum_congr rfl fun j hj => by
          rw [windowAddr_div_four, s.peekWord_windowIndex i (Finset.mem_range.mp hj)]
  · rw [s.peekByte_word index hk, byteOf_getLsbD, decide_eq_true hb, Bool.true_and]

end Sys2Proof.Machine
end

section
/-! SUPPORT. What an outstanding RNG request lets happen (R70, R71, R73), and what a reset event is (R190, R191). -/

namespace Sys2Proof.Machine

variable {i : Instr} {s t : State} {e : Event} {b : Nat}

/-! ### Requests -/

theorem State.inflight_of_pending (h : s.pending = some b) : ∃ f, s.inflight = some f ∧ f.pending = some b :=
  Option.bind_eq_some_iff.mp h

theorem State.pending_congr (h : t.inflight = s.inflight) : t.pending = s.pending := by
  rw [State.pending, State.pending, h]

theorem State.pending_issueRequest {n : Nat} (h : (s.issueRequest b).pending = some n) : n = b := by
  obtain ⟨g, hg, hn⟩ := State.inflight_of_pending h
  obtain ⟨f, -, rfl⟩ := Option.map_eq_some_iff.mp hg
  exact (Option.some.inj hn).symm

/-- A command whose step leaves a new request is an MRTEST that issues it (R156). -/
theorem ExecEffect.issue_of_new_request (h : ExecEffect i s t) (hs : s.pending = none) (ht : t.pending = some b) :
    ∃ rm iters, i = .mrtest rm iters ∧ 4 ≤ s.x rm ∧ s.round < iters ∧ b = s.x rm - 3 := by
  cases h with
  | raise e he hp => cases ht
  | result rd v hd hv => cases ht
  | verdict c hd hp => cases ht
  | wait hm hw => cases hs.symm.trans ht
  | issue rm iters hi hp hn hr => exact ⟨rm, iters, hi, hn, hr, State.pending_issueRequest ht⟩
  | answer rm iters v c hi hp hv => cases hs.symm.trans hp

/-- A step after which there is a new request is the step of a command in flight. -/
theorem StepEffect.command_of_new_request (h : StepEffect s e t) (hs : s.pending = none) (ht : t.pending = some b) :
    ∃ f i, s.inflight = some f ∧ decode f.word = .ok i ∧ ExecEffect i s t := by
  cases h with
  | command f i t hf hd he => exact ⟨f, i, hf, hd, he⟩
  | answered v c f i t hf hd hp he => cases hs.symm.trans hp
  | cmdTaken w i hr hd => cases ht
  | softReset d hd => cases ht
  | hardReset => cases ht
  | _ => cases hs.symm.trans ht

/-! ### Waiting for an answer -/

/-- While no answer comes, an MRTEST with a request outstanding has no step (R73). -/
theorem ExecEffect.eq_of_unanswered {rm : RegNo} {iters : Nat} (h : ExecEffect (.mrtest rm iters) s t)
    (hp : s.pending = some b) (hq : s.rngReply = none) : t = s := by
  have hbusy : ¬ (s.pending = none ∨ isMrtest (.mrtest rm iters) = false) := by simp [hp, isMrtest]
  cases h with
  | raise e _ hp' => exact absurd hp' hbusy
  | result rd v hd _ => cases hd
  | verdict c _ hp' => exact absurd hp' hbusy
  | wait _ _ => rfl
  | issue _ _ _ hp' _ _ => cases hp.symm.trans hp'
  | answer _ _ v _ _ _ hv => cases hq.symm.trans hv

/-- With a request outstanding, nothing but an answer or a reset touches the in-flight record (R73). -/
theorem StepEffect.inflight_kept_of_unanswered (h : StepEffect s e t) (hinv : s.Inv) (hp : s.pending = some b)
    (hr : e.resets = false) (ha : ∀ v, e ≠ .rngAnswer v) : t.inflight = s.inflight := by
  obtain ⟨f, hf, hpf⟩ := State.inflight_of_pending hp
  cases e with
  | hostRead index => cases h <;> rfl
  | hostWrite index d => exact (h.hostWrite_while_busy (hinv.flags_in_flight hf).1 hr).1
  | engine =>
    cases h with
    | idle hn => rfl
    | command g i t hg hd he =>
      cases hf.symm.trans hg
      obtain ⟨rm, iters, rfl, -, -⟩ := (hinv.flightOk hf hd).mrtest_of_pending hpf
      rw [he.eq_of_unanswered hp hinv.quiet]
  | rngAnswer v => exact absurd rfl (ha v)
  | hardReset => cases hr

/-! ### Events -/

theorem ExecEffect.script_kept (h : ExecEffect i s t) : t.script = s.script := by
  obtain ⟨-, -, -, -, hs, -⟩ := h.frame
  exact hs

/-- No event touches the events to come. -/
theorem StepEffect.script_kept (h : StepEffect s e t) : t.script = s.script := by
  cases h with
  | command f i t hf hd he => exact he.script_kept
  | answered v b f i t hf hd hp he => exact he.script_kept
  | hardReset => exact State.hardReset_script s
  | _ => rfl

theorem script_of_step (h : step s = .next t) : t.script = s.script.tail := (step_effect h).script_kept

/-- What holds of every event of the script and of the engine's turn holds of the next event. -/
theorem State.nextEvent_of_forall {P : Event → Prop} (hs : ∀ e ∈ s.script, P e) (he : P .engine) : P s.nextEvent := by
  unfold State.nextEvent
  cases hscript : s.script with
  | nil => exact he
  | cons e rest => exact hs e (hscript ▸ List.mem_cons_self)

theorem Event.resets_iff : e.resets = true ↔ e = .hardReset ∨ ∃ d, e = .hostWrite 2 d ∧ d.getLsbD 0 = true := by
  constructor
  · intro h
    unfold Event.resets at h
    split at h
    · next d => exact .inr ⟨d, rfl, h⟩
    · exact .inl rfl
    all_goals cases h
  · rintro (rfl | ⟨d, rfl, hd⟩)
    · rfl
    · exact hd

/-- A reset event ends the command in flight (R190, R191). -/
theorem perform_idle_of_resets (h : perform e s = .next t) (hr : e.resets = true) :
    t.status.busy = false ∧ t.inflight = none := by
  rcases Event.resets_iff.mp hr with rfl | ⟨d, rfl, hd⟩
  · cases h; exact ⟨rfl, rfl⟩
  · have hw : s.hostWrite 2 d = s.softReset := if_pos hd
    rw [perform, hw] at h
    cases h; exact ⟨rfl, rfl⟩

/-! ### Runs -/

theorem State.Inv.step_next (h : s.Inv) : ∃ t, Machine.step s = .next t :=
  step_next_of_decodes fun f hf => by
    obtain ⟨-, i, hd, -⟩ := h.flight f hf
    exact ⟨i, hd⟩

/-- A run without a reset and without an answer keeps the record of an outstanding request. -/
theorem State.Inv.runSteps_unanswered (k : Nat) (h : s.Inv) (hp : s.pending = some b)
    (hs : ∀ e ∈ s.script, e.resets = false ∧ ∀ v, e ≠ .rngAnswer v) :
    ∃ t, Machine.runSteps k s = .next t ∧ t.inflight = s.inflight := by
  induction k generalizing s with
  | zero => exact ⟨s, rfl, rfl⟩
  | succ k ih =>
    obtain ⟨u, hu⟩ := h.step_next
    obtain ⟨hr, ha⟩ := State.nextEvent_of_forall hs ⟨rfl, fun v hv => by cases hv⟩
    have hinf : u.inflight = s.inflight :=
      (step_effect hu).inflight_kept_of_unanswered (h.scripted s.script.tail) hp hr ha
    obtain ⟨t, ht, hti⟩ := ih (h.step hu) ((State.pending_congr hinf).trans hp) fun e he =>
      hs e (List.mem_of_mem_tail (script_of_step hu ▸ he))
    exact ⟨t, (runSteps_succ k hu).trans ht, hti.trans hinf⟩

end Sys2Proof.Machine
end

section
/-! PROOFS. The machine never stops; requests and waiting for their answers (O49, O56, O57). -/

namespace Sys2Proof.Machine

/-- Settles O49: under the invariant the word in flight decodes. -/
theorem stepNeverStops : Obligations.StepNeverStops := fun _ h => h.step_next

/-- Settles O56: among the effects of a step only MRTEST's issue leaves a new request. -/
theorem onlyMrtestRequestsRandomNumbers : Obligations.OnlyMrtestRequestsRandomNumbers := by
  intro s t b h hs ht
  obtain ⟨f, i, hf, hd, he⟩ := (step_effect h).command_of_new_request hs ht
  obtain ⟨rm, iters, rfl, hn, hr, rfl⟩ := he.issue_of_new_request hs ht
  exact ⟨f, rm, iters, hf, hd, State.round_of_inflight hf ▸ hr, rfl, Nat.le_sub_of_add_le hn⟩

/-- Settles O57: the record stays through the run, and with it BUSY by the invariant; a reset clears both. -/
theorem unansweredRequestKeepsBusy : Obligations.UnansweredRequestKeepsBusy := by
  refine ⟨fun s b k hinv hp hs => ?_, fun s t hr h => perform_idle_of_resets h hr⟩
  obtain ⟨f, hf, -⟩ := State.inflight_of_pending hp
  obtain ⟨t, ht, hti⟩ := hinv.runSteps_unanswered k hp hs
  exact ⟨t, ht, hti, ((hinv.runSteps ht).flags_in_flight (hti.trans hf)).1⟩

end Sys2Proof.Machine
end

section
/-! SUPPORT. What the decoder can answer, by opcode (R82 to R86); R82's masks; the fields of a word as numbers (R81). -/

namespace Sys2Proof.Machine

variable {w : Word} {i : Instr}

/-! ### What a word decodes to -/

/-- Everything `decode` can answer for a legal word: the command of its opcode, on its fields, when the fields that the
format does not use are zero. -/
inductive Decoded (w : Word) : Instr → Prop where
  | mulmod (op : opcodeOf w = 0x01) (unused : ∀ f ∈ [imm8Of w], f = 0) :
      Decoded w (.mulmod (regOf (rdOf w)) (regOf (rs1Of w)) (regOf (rs2Of w)) (regOf (rmOf w)))
  | montmul (op : opcodeOf w = 0x02) (unused : ∀ f ∈ [imm8Of w], f = 0) :
      Decoded w (.montmul (regOf (rdOf w)) (regOf (rs1Of w)) (regOf (rs2Of w)) (regOf (rmOf w)))
  | montr2 (op : opcodeOf w = 0x03) (unused : ∀ f ∈ [rs1Of w, rs2Of w, imm8Of w], f = 0) :
      Decoded w (.montr2 (regOf (rdOf w)) (regOf (rmOf w)))
  | powmod (op : opcodeOf w = 0x04) (unused : ∀ f ∈ [imm8Of w], f = 0) :
      Decoded w (.powmod (regOf (rdOf w)) (regOf (rs1Of w)) (regOf (rs2Of w)) (regOf (rmOf w)))
  | gcd (op : opcodeOf w = 0x05) (unused : ∀ f ∈ [rmOf w, imm8Of w], f = 0) :
      Decoded w (.gcd (regOf (rdOf w)) (regOf (rs1Of w)) (regOf (rs2Of w)))
  | modinv (op : opcodeOf w = 0x06) (unused : ∀ f ∈ [rs2Of w, imm8Of w], f = 0) :
      Decoded w (.modinv (regOf (rdOf w)) (regOf (rs1Of w)) (regOf (rmOf w)))
  | lambda (op : opcodeOf w = 0x07) (unused : ∀ f ∈ [rmOf w, imm8Of w], f = 0) :
      Decoded w (.lambda (regOf (rdOf w)) (regOf (rs1Of w)) (regOf (rs2Of w)))
  | mrround (op : opcodeOf w = 0x08) (unused : ∀ f ∈ [rdOf w, rs2Of w, imm8Of w], f = 0) :
      Decoded w (.mrround (regOf (rs1Of w)) (regOf (rmOf w)))
  | mrtest (op : opcodeOf w = 0x09) (unused : ∀ f ∈ [rdOf w, rs1Of w, rs2Of w], f = 0) :
      Decoded w (.mrtest (regOf (rmOf w)) (imm8Of w))

theorem Decoded.of_decode (h : decode w = .ok i) : Decoded w i := by
  unfold decode at h
  split at h
  case h_10 => cases h
  all_goals obtain ⟨unused, rfl⟩ := (whenZero_eq_ok_iff _ _ _).mp h
  · exact .mulmod ‹_› unused
  · exact .montmul ‹_› unused
  · exact .montr2 ‹_› unused
  · exact .powmod ‹_› unused
  · exact .gcd ‹_› unused
  · exact .modinv ‹_› unused
  · exact .lambda ‹_› unused
  · exact .mrround ‹_› unused
  · exact .mrtest ‹_› unused

theorem Decoded.decode_eq (h : Decoded w i) : decode w = .ok i := by
  cases h <;> next op unused => simpa only [decode, op] using (whenZero_eq_ok_iff _ _ _).mpr ⟨unused, rfl⟩

theorem Decoded.wellFormed (h : Decoded w i) : i.wellFormed = true := by
  cases h with
  | mrtest op unused => exact decide_eq_true (fieldsFit_of_word w).imm
  | _ => rfl

theorem Decoded.encode_eq (h : Decoded w i) : encode i = w := by
  obtain ⟨-, hrd, hrs1, hrs2, hrm, -⟩ := fieldsFit_of_word w
  conv_rhs => rw [word_eq_wordValue w]
  cases h <;> next op unused =>
    simp only [List.forall_mem_cons] at unused
    simp only [encode, op, unused, regOf_of_lt, hrd, hrs1, hrs2, hrm]

/-- A legal word is the encoding of its command (R85). -/
theorem encode_of_decode (h : decode w = .ok i) : encode i = w := (Decoded.of_decode h).encode_eq

theorem whenZero_eq_error_iff (unused : List Nat) (i : Instr) :
    (∃ r, whenZero unused i = .error r) ↔ ∃ f ∈ unused, f ≠ 0 := by
  unfold whenZero
  split <;> next h => simpa using h

/-- R86 on the fields of R81: a reserved opcode, or a field that the opcode's format does not use is not zero. -/
theorem decode_eq_error_iff (w : Word) : (∃ r, decode w = .error r) ↔
    opcodeOf w = 0x00 ∨ 0x0A ≤ opcodeOf w ∨
    (opcodeOf w ∈ [0x01, 0x02, 0x04] ∧ imm8Of w ≠ 0) ∨
    (opcodeOf w = 0x03 ∧ (rs1Of w ≠ 0 ∨ rs2Of w ≠ 0 ∨ imm8Of w ≠ 0)) ∨
    (opcodeOf w ∈ [0x05, 0x07] ∧ (rmOf w ≠ 0 ∨ imm8Of w ≠ 0)) ∨
    (opcodeOf w = 0x06 ∧ (rs2Of w ≠ 0 ∨ imm8Of w ≠ 0)) ∨
    (opcodeOf w = 0x08 ∧ (rdOf w ≠ 0 ∨ rs2Of w ≠ 0 ∨ imm8Of w ≠ 0)) ∨
    (opcodeOf w = 0x09 ∧ (rdOf w ≠ 0 ∨ rs1Of w ≠ 0 ∨ rs2Of w ≠ 0)) := by
  unfold decode
  split
  case h_10 =>
    have hop : opcodeOf w = 0x00 ∨ 0x0A ≤ opcodeOf w := by simp only [imp_false] at *; omega
    simpa using hop.imp_right .inl
  all_goals next op => simp [whenZero_eq_error_iff, op]

/-! ### Words of known fields -/

theorem fieldsFit_of_regs {op imm : Nat} (hop : op < 256) (rd rs1 rs2 rm : RegNo) (himm : imm < 256) :
    FieldsFit op rd rs1 rs2 rm imm :=
  ⟨hop, rd.isLt, rs1.isLt, rs2.isLt, rm.isLt, himm⟩

theorem fieldsFit_and {op rd rs1 rs2 rm imm : Nat} (h : FieldsFit op rd rs1 rs2 rm imm) (mo md m1 m2 mm mi : Nat) :
    FieldsFit (op &&& mo) (rd &&& md) (rs1 &&& m1) (rs2 &&& m2) (rm &&& mm) (imm &&& mi) :=
  ⟨Nat.and_le_left.trans_lt h.op, Nat.and_le_left.trans_lt h.rd, Nat.and_le_left.trans_lt h.rs1,
    Nat.and_le_left.trans_lt h.rs2, Nat.and_le_left.trans_lt h.rm, Nat.and_le_left.trans_lt h.imm⟩

/-- R81's formula determines the fields that fit. -/
theorem wordValue_inj {op rd rs1 rs2 rm imm op' rd' rs1' rs2' rm' imm' : Nat}
    (h : FieldsFit op rd rs1 rs2 rm imm) (h' : FieldsFit op' rd' rs1' rs2' rm' imm') :
    wordValue op rd rs1 rs2 rm imm = wordValue op' rd' rs1' rs2' rm' imm' ↔
      op = op' ∧ rd = rd' ∧ rs1 = rs1' ∧ rs2 = rs2' ∧ rm = rm' ∧ imm = imm' := by
  obtain ⟨_, _, _, _, _, _⟩ := h
  obtain ⟨_, _, _, _, _, _⟩ := h'
  unfold wordValue
  omega

/-! ### Masks -/

/-- The value of a field marked with `b`, or no value. -/
def fieldIf (b : Bool) (f : Nat) : List Nat := bif b then [f] else []

/-- The marked fields of a word: those that a format does not use. -/
def markedFields (w : Word) (rd rs1 rs2 rm imm : Bool) : List Nat :=
  fieldIf rd (rdOf w) ++ (fieldIf rs1 (rs1Of w) ++ (fieldIf rs2 (rs2Of w) ++ (fieldIf rm (rmOf w) ++
    fieldIf imm (imm8Of w))))

/-- The mask of a format (R82): ones in the opcode byte and in the marked fields. -/
def formatMask (rd rs1 rs2 rm imm : Bool) : Word :=
  BitVec.ofNat 32 (wordValue 0xFF (bif rd then 0xF else 0) (bif rs1 then 0xF else 0) (bif rs2 then 0xF else 0)
    (bif rm then 0xF else 0) (bif imm then 0xFF else 0))

theorem and_cond_15_eq_zero_iff {f : Nat} (h : f < 16) (b : Bool) :
    f &&& (bif b then 0xF else 0) = 0 ↔ ∀ g ∈ fieldIf b f, g = 0 := by
  cases b <;> simp [fieldIf, and_15_of_lt h]

theorem and_cond_255_eq_zero_iff {f : Nat} (h : f < 256) (b : Bool) :
    f &&& (bif b then 0xFF else 0) = 0 ↔ ∀ g ∈ fieldIf b f, g = 0 := by
  cases b <;> simp [fieldIf, and_255_of_lt h]

/-- A word meets a format's mask and an opcode's match exactly when it has that opcode and zero in the marked fields. -/
theorem and_formatMask_eq_iff (w : Word) {op : Nat} (hop : op < 256) (rd rs1 rs2 rm imm : Bool) :
    w &&& formatMask rd rs1 rs2 rm imm = BitVec.ofNat 32 (wordValue op 0 0 0 0 0) ↔
      opcodeOf w = op ∧ ∀ f ∈ markedFields w rd rs1 rs2 rm imm, f = 0 := by
  have four_bits : ∀ b : Bool, (bif b then 0xF else 0) < 16 := by decide
  have eight_bits : ∀ b : Bool, (bif b then 0xFF else 0) < 256 := by decide
  have hmask : FieldsFit 0xFF _ _ _ _ _ :=
    ⟨by decide, four_bits rd, four_bits rs1, four_bits rs2, four_bits rm, eight_bits imm⟩
  have hmatch : FieldsFit op 0 0 0 0 0 := fieldsFit_of_regs hop 0 0 0 0 (by decide)
  have hw := fieldsFit_of_word w
  simp only [markedFields, List.forall_mem_append, ← and_cond_15_eq_zero_iff hw.rd, ← and_cond_15_eq_zero_iff hw.rs1,
    ← and_cond_15_eq_zero_iff hw.rs2, ← and_cond_15_eq_zero_iff hw.rm, ← and_cond_255_eq_zero_iff hw.imm]
  rw [and_eq_iff_fields, wordValue_toNat hmatch, formatMask, opcodeOf_wordValue hmask, rdOf_wordValue hmask,
    rs1Of_wordValue hmask, rs2Of_wordValue hmask, rmOf_wordValue hmask, imm8Of_wordValue hmask,
    wordValue_inj (fieldsFit_and hw _ _ _ _ _ _) hmatch, and_255_of_lt hw.op]

/-! ### The fields as numbers -/

theorem opcodeOf_eq (w : Word) : opcodeOf w = w.toNat / 2 ^ 24 := Nat.mod_eq_of_lt (by have := w.isLt; omega)

theorem regOf_rdOf (w : Word) : regOf (rdOf w) = regAt w 20 := Fin.ext (Nat.mod_mod _ _)
theorem regOf_rs1Of (w : Word) : regOf (rs1Of w) = regAt w 16 := Fin.ext (Nat.mod_mod _ _)
theorem regOf_rs2Of (w : Word) : regOf (rs2Of w) = regAt w 12 := Fin.ext (Nat.mod_mod _ _)
theorem regOf_rmOf (w : Word) : regOf (rmOf w) = regAt w 8 := Fin.ext (Nat.mod_mod _ _)
theorem imm8Of_eq (w : Word) : imm8Of w = w.toNat % 2 ^ 8 := by rw [imm8Of, slice, pow_zero, Nat.div_one]

theorem rs1Of_or_rs2Of_ne_zero_iff (w : Word) : w.toNat / 2 ^ 12 % 2 ^ 8 ≠ 0 ↔ rs1Of w ≠ 0 ∨ rs2Of w ≠ 0 := by
  simp only [rs1Of, rs2Of, slice]; omega

theorem rmOf_or_imm8Of_ne_zero_iff (w : Word) : w.toNat % 2 ^ 12 ≠ 0 ↔ rmOf w ≠ 0 ∨ imm8Of w ≠ 0 := by
  simp only [rmOf, imm8Of, slice]; omega

theorem rdOf_or_rs1Of_or_rs2Of_ne_zero_iff (w : Word) :
    w.toNat / 2 ^ 12 % 2 ^ 12 ≠ 0 ↔ rdOf w ≠ 0 ∨ rs1Of w ≠ 0 ∨ rs2Of w ≠ 0 := by
  simp only [rdOf, rs1Of, rs2Of, slice]; omega

end Sys2Proof.Machine
end

section
/-! PROOFS. Encoding and decoding (O1 to O7). -/

namespace Sys2Proof.Machine

/-- Settles O3: by the law of each command. -/
theorem decodeOfEncode : Obligations.DecodeOfEncode := fun _ h => decode_encode h

/-- Settles O4: the word is the encoding of what it decodes to, so the command determines it. -/
theorem encodeOfDecode : Obligations.EncodeOfDecode :=
  ⟨fun _ _ h => ⟨(Decoded.of_decode h).wellFormed, encode_of_decode h⟩,
    fun _ _ _ hw hv => (encode_of_decode hw).symm.trans (encode_of_decode hv)⟩

/-- Settles O2: the fields of every command fit, so its word is the formula's number. -/
theorem encodeFollowsWordFormula : Obligations.EncodeFollowsWordFormula := by
  intro rd rs1 rs2 rm iters hi
  refine ⟨?_, ?_, ?_, ?_, ?_, ?_, ?_, ?_, ?_⟩
  · exact wordValue_toNat (fieldsFit_of_regs (by decide) rd rs1 rs2 rm (by decide))
  · exact wordValue_toNat (fieldsFit_of_regs (by decide) rd rs1 rs2 rm (by decide))
  · exact (wordValue_toNat (fieldsFit_of_regs (by decide) rd 0 0 rm (by decide))).trans (by simp [wordValue])
  · exact wordValue_toNat (fieldsFit_of_regs (by decide) rd rs1 rs2 rm (by decide))
  · exact wordValue_toNat (fieldsFit_of_regs (by decide) rd rs1 rs2 0 (by decide))
  · exact (wordValue_toNat (fieldsFit_of_regs (by decide) rd rs1 0 rm (by decide))).trans (by simp [wordValue])
  · exact wordValue_toNat (fieldsFit_of_regs (by decide) rd rs1 rs2 0 (by decide))
  · exact (wordValue_toNat (fieldsFit_of_regs (by decide) 0 rs1 0 rm (by decide))).trans (by simp [wordValue])
  · exact (wordValue_toNat (fieldsFit_of_regs (by decide) 0 0 0 rm hi)).trans (by simp [wordValue])

/-- Settles O5: each row's mask and match say the opcode and the zero fields under which the word decodes to it. -/
theorem maskAndMatchSelectTheRow : Obligations.MaskAndMatchSelectTheRow := by
  intro w
  refine ⟨?_, ?_, ?_, ?_, ?_, ?_, ?_, ?_, ?_⟩
  · refine (and_formatMask_eq_iff w (op := 0x01) (by decide) false false false false true).trans
      ⟨fun ⟨op, unused⟩ => ?_, fun ⟨_, _, _, _, h⟩ => ?_⟩
    · exact ⟨_, _, _, _, (Decoded.mulmod op unused).decode_eq⟩
    · cases Decoded.of_decode h with | mulmod op unused => exact ⟨op, unused⟩
  · refine (and_formatMask_eq_iff w (op := 0x02) (by decide) false false false false true).trans
      ⟨fun ⟨op, unused⟩ => ?_, fun ⟨_, _, _, _, h⟩ => ?_⟩
    · exact ⟨_, _, _, _, (Decoded.montmul op unused).decode_eq⟩
    · cases Decoded.of_decode h with | montmul op unused => exact ⟨op, unused⟩
  · refine (and_formatMask_eq_iff w (op := 0x03) (by decide) false true true false true).trans
      ⟨fun ⟨op, unused⟩ => ?_, fun ⟨_, _, h⟩ => ?_⟩
    · exact ⟨_, _, (Decoded.montr2 op unused).decode_eq⟩
    · cases Decoded.of_decode h with | montr2 op unused => exact ⟨op, unused⟩
  · refine (and_formatMask_eq_iff w (op := 0x04) (by decide) false false false false true).trans
      ⟨fun ⟨op, unused⟩ => ?_, fun ⟨_, _, _, _, h⟩ => ?_⟩
    · exact ⟨_, _, _, _, (Decoded.powmod op unused).decode_eq⟩
    · cases Decoded.of_decode h with | powmod op unused => exact ⟨op, unused⟩
  · refine (and_formatMask_eq_iff w (op := 0x05) (by decide) false false false true true).trans
      ⟨fun ⟨op, unused⟩ => ?_, fun ⟨_, _, _, h⟩ => ?_⟩
    · exact ⟨_, _, _, (Decoded.gcd op unused).decode_eq⟩
    · cases Decoded.of_decode h with | gcd op unused => exact ⟨op, unused⟩
  · refine (and_formatMask_eq_iff w (op := 0x06) (by decide) false false true false true).trans
      ⟨fun ⟨op, unused⟩ => ?_, fun ⟨_, _, _, h⟩ => ?_⟩
    · exact ⟨_, _, _, (Decoded.modinv op unused).decode_eq⟩
    · cases Decoded.of_decode h with | modinv op unused => exact ⟨op, unused⟩
  · refine (and_formatMask_eq_iff w (op := 0x07) (by decide) false false false true true).trans
      ⟨fun ⟨op, unused⟩ => ?_, fun ⟨_, _, _, h⟩ => ?_⟩
    · exact ⟨_, _, _, (Decoded.lambda op unused).decode_eq⟩
    · cases Decoded.of_decode h with | lambda op unused => exact ⟨op, unused⟩
  · refine (and_formatMask_eq_iff w (op := 0x08) (by decide) true false true false true).trans
      ⟨fun ⟨op, unused⟩ => ?_, fun ⟨_, _, h⟩ => ?_⟩
    · exact ⟨_, _, (Decoded.mrround op unused).decode_eq⟩
    · cases Decoded.of_decode h with | mrround op unused => exact ⟨op, unused⟩
  · refine (and_formatMask_eq_iff w (op := 0x09) (by decide) true true true false false).trans
      ⟨fun ⟨op, unused⟩ => ?_, fun ⟨_, _, h⟩ => ?_⟩
    · exact ⟨_, _, (Decoded.mrtest op unused).decode_eq⟩
    · cases Decoded.of_decode h with | mrtest op unused => exact ⟨op, unused⟩

/-- Settles O6: by the nine forms of a legal word, with its fields written as numbers. -/
theorem decodedOperandsAreTheFields : Obligations.DecodedOperandsAreTheFields := by
  intro w i h
  refine ⟨?_, by rw [encode_of_decode h]⟩
  cases Decoded.of_decode h <;> simp [regOf_rdOf, regOf_rs1Of, regOf_rs2Of, regOf_rmOf, imm8Of_eq]

/-- Settles O7: R86 on the fields, adjacent fields joined to one number, and the rule of an illegal CMD write. -/
theorem illegalWordsAndTheirError : Obligations.IllegalWordsAndTheirError := by
  refine ⟨fun w => ?_, ⟨_, rfl⟩, ⟨_, rfl⟩, fun s w r rest hb he hd hs => step_cmdWrite_illegal hs hb he hd⟩
  rw [decode_eq_error_iff, rs1Of_or_rs2Of_ne_zero_iff, rmOf_or_imm8Of_ne_zero_iff,
    rdOf_or_rs1Of_or_rs2Of_ne_zero_iff, ← opcodeOf_eq, ← imm8Of_eq, or_assoc (a := rs1Of w ≠ 0)]
  rfl

/-- Settles O1: each word evaluates. -/
theorem workedEncodingsDecode : Obligations.WorkedEncodingsDecode := by
  unfold Obligations.WorkedEncodingsDecode
  and_intros <;> rfl

end Sys2Proof.Machine
end

section
/-! SUPPORT. The ways a command can end, as the obligations write them out (R36, R175), and MULMOD's two cases (R100). -/

namespace Sys2Proof.Machine

/-- A result as the obligations write it out (R36). -/
theorem State.finishWith_eq_resultState (s : State) (rd : RegNo) (v : Nat) : s.finishWith rd v = resultState s rd v := rfl

/-- A command error as the obligations write it out (R175). -/
theorem State.raise_eq_errorState (s : State) (e : CmdError) : s.raise e = errorState s e.code := rfl

theorem exec_mulmod_of_ne_zero {s : State} (rd rs1 rs2 : RegNo) {rm : RegNo} (hm : s.x rm ≠ 0) :
    exec (.mulmod rd rs1 rs2 rm) s = .next (s.finishWith rd (s.x rs1 * s.x rs2 % s.x rm)) := if_neg hm

theorem exec_mulmod_of_eq_zero {s : State} (rd rs1 rs2 : RegNo) {rm : RegNo} (hm : s.x rm = 0) :
    exec (.mulmod rd rs1 rs2 rm) s = .next (s.raise .modulusZero) := if_pos hm

/-- R81's formula for MULMOD, with the opcode byte in its place. -/
theorem encode_mulmod (rd rs1 rs2 rm : RegNo) : encode (.mulmod rd rs1 rs2 rm) =
    BitVec.ofNat 32 (0x01000000 + rd.val * 2 ^ 20 + rs1.val * 2 ^ 16 + rs2.val * 2 ^ 12 + rm.val * 2 ^ 8) := by
  simp [encode, wordValue]

end Sys2Proof.Machine
end

section
/-! PROOFS. The result of MULMOD (O25). -/

namespace Sys2Proof.Machine

/-- Settles O25: one rule for each case of the modulus, and the decoder's law on MULMOD's word. -/
theorem mulmodResult : Obligations.MulmodResult := by
  intro s rd rs1 rs2 rm
  refine ⟨fun hm => ?_, fun hm => ?_, ?_⟩
  · rw [exec_mulmod_of_ne_zero rd rs1 rs2 hm, State.finishWith_eq_resultState]
  · rw [exec_mulmod_of_eq_zero rd rs1 rs2 hm, State.raise_eq_errorState, CmdError.code]
  · rw [← encode_mulmod]
    exact decode_encode rfl

end Sys2Proof.Machine
end

section
/-! SUPPORT. Montgomery arithmetic: the Montgomery product by its defining congruence (R110), and the exact division
by `R` on which the reference algorithm rests (R114). -/

namespace Sys2Proof.Machine

/-- The radix may be cancelled modulo an odd number. -/
theorem modEq_of_mul_radix_modEq {w m x y : Nat} (hm : m % 2 = 1) (h : x * 2 ^ w ≡ y * 2 ^ w [MOD m]) :
    x ≡ y [MOD m] :=
  Nat.ModEq.cancel_right_of_coprime ((Nat.gcd_comm _ _).trans (gcd_radix hm)) h

/-- The Montgomery product is the one number below the modulus that, times `R`, is the ordinary product. -/
theorem montProduct_eq_iff {w a b m r : Nat} (hm : m % 2 = 1) :
    montProduct w a b m = r ↔ r < m ∧ r * 2 ^ w ≡ a * b [MOD m] := by
  have hpos : 0 < m := by omega
  constructor
  · rintro rfl
    exact ⟨montProduct_lt hpos, montProduct_mul_radix hm⟩
  · rintro ⟨hr, hc⟩
    have h : montProduct w a b m ≡ r [MOD m] :=
      modEq_of_mul_radix_modEq hm ((montProduct_mul_radix hm).trans hc.symm)
    exact h.eq_of_lt_of_lt (montProduct_lt hpos) hr

/-- A product by `R^2 mod m` takes a number into Montgomery form. -/
theorem montProduct_radixSquare_modEq {w a m : Nat} (hm : m % 2 = 1) :
    montProduct w a (radixSquare w m) m ≡ a * 2 ^ w [MOD m] := by
  refine modEq_of_mul_radix_modEq (w := w) hm ?_
  calc montProduct w a (radixSquare w m) m * 2 ^ w ≡ a * radixSquare w m [MOD m] := montProduct_mul_radix hm
    _ ≡ a * 2 ^ (2 * w) [MOD m] := Nat.ModEq.mul_left _ (Nat.mod_modEq _ _)
    _ = a * 2 ^ w * 2 ^ w := by ring

/-- The Montgomery product of two numbers in Montgomery form is their product in Montgomery form. -/
theorem montProduct_modEq_of_montgomery_form {w a b a' b' m : Nat} (hm : m % 2 = 1)
    (ha : a' ≡ a * 2 ^ w [MOD m]) (hb : b' ≡ b * 2 ^ w [MOD m]) :
    montProduct w a' b' m ≡ a * b * 2 ^ w [MOD m] := by
  refine modEq_of_mul_radix_modEq (w := w) hm ?_
  calc montProduct w a' b' m * 2 ^ w ≡ a' * b' [MOD m] := montProduct_mul_radix hm
    _ ≡ a * 2 ^ w * (b * 2 ^ w) [MOD m] := ha.mul hb
    _ = a * b * 2 ^ w * 2 ^ w := by ring

/-- The constant `m' = (-m^(-1)) mod R` of R114. -/
def reductionConstant (w m : Nat) : Nat := (2 ^ w - (inverseOf m (2 ^ w)).getD 0) % 2 ^ w

/-- The factor `q` of R114, by which `m` is added to `t` before the division by `R`. -/
def reductionFactor (w m t : Nat) : Nat := t % 2 ^ w * reductionConstant w m % 2 ^ w

/-- The number `u` of R114, before the conditional subtraction. -/
def reduceOnce (w m t : Nat) : Nat := (t + reductionFactor w m t * m) / 2 ^ w

/-- R114's algorithm through its intermediate values. -/
theorem montReduce_eq (w a b m : Nat) : montReduce w a b m =
    if m ≤ reduceOnce w m (a * b) then reduceOnce w m (a * b) - m else reduceOnce w m (a * b) := rfl

theorem reductionConstant_mul_add_one_modEq {w m : Nat} (hm : m % 2 = 1) :
    reductionConstant w m * m + 1 ≡ 0 [MOD 2 ^ w] := by
  obtain ⟨v, hv, hlt, hinv⟩ := inverseOf_some (Nat.two_pow_pos w) ((Nat.gcd_comm _ _).trans (gcd_radix (w := w) hm))
  have hc : reductionConstant w m = (2 ^ w - v) % 2 ^ w := by rw [reductionConstant, hv, Option.getD_some]
  have hinv' : 1 ≡ m * v [MOD 2 ^ w] := hinv.symm
  calc reductionConstant w m * m + 1 ≡ (2 ^ w - v) * m + m * v [MOD 2 ^ w] := by
        rw [hc]
        exact ((Nat.mod_modEq _ _).mul_right m).add hinv'
    _ = 2 ^ w * m := by rw [mul_comm m v, ← add_mul, Nat.sub_add_cancel hlt.le]
    _ ≡ 0 [MOD 2 ^ w] := Nat.modEq_zero_iff_dvd.mpr (Nat.dvd_mul_right _ _)

/-- The division by `R` in R114 is exact. -/
theorem radix_dvd_add_reductionFactor_mul {w m : Nat} (hm : m % 2 = 1) (t : Nat) :
    2 ^ w ∣ t + reductionFactor w m t * m := by
  have hq : reductionFactor w m t ≡ t * reductionConstant w m [MOD 2 ^ w] :=
    (Nat.mod_modEq _ _).trans ((Nat.mod_modEq t _).mul_right _)
  refine Nat.modEq_zero_iff_dvd.mp ?_
  calc t + reductionFactor w m t * m ≡ t + t * reductionConstant w m * m [MOD 2 ^ w] :=
        (hq.mul_right m).add_left t
    _ = t * (reductionConstant w m * m + 1) := by ring
    _ ≡ t * 0 [MOD 2 ^ w] := (reductionConstant_mul_add_one_modEq hm).mul_left t

theorem reduceOnce_mul_radix_modEq {w m : Nat} (hm : m % 2 = 1) (t : Nat) :
    reduceOnce w m t * 2 ^ w ≡ t [MOD m] := by
  rw [reduceOnce, Nat.div_mul_cancel (radix_dvd_add_reductionFactor_mul hm t)]
  simp [Nat.ModEq]

theorem reduceOnce_lt {w m t : Nat} (hm : 0 < m) (ht : t < 2 ^ w * m) : reduceOnce w m t < 2 * m := by
  have hq : reductionFactor w m t < 2 ^ w := Nat.mod_lt _ (Nat.two_pow_pos w)
  refine Nat.div_lt_of_lt_mul ?_
  calc t + reductionFactor w m t * m < 2 ^ w * m + 2 ^ w * m := add_lt_add ht (Nat.mul_lt_mul_of_pos_right hq hm)
    _ = 2 ^ w * (2 * m) := by ring

/-- Below twice the modulus one conditional subtraction is the residue. -/
theorem conditional_sub_eq_mod {u m : Nat} (h : u < 2 * m) : (if m ≤ u then u - m else u) = u % m := by
  split
  · next hmu => rw [Nat.mod_eq_sub_mod hmu, Nat.mod_eq_of_lt (by omega)]
  · next hmu => rw [Nat.mod_eq_of_lt (by omega)]

end Sys2Proof.Machine
end

section
/-! SUPPORT. The cases of MONTMUL and MONTR2 (R111, R112), and their words. -/

namespace Sys2Proof.Machine

variable {s : State} {rm : RegNo}

theorem exec_montmul_of_odd (rd rs1 rs2 : RegNo) (hm : s.x rm % 2 = 1) :
    exec (.montmul rd rs1 rs2 rm) s = .next (s.finishWith rd (montProduct s.width (s.x rs1) (s.x rs2) (s.x rm))) :=
  (if_neg (by omega)).trans (if_neg (by omega))

theorem exec_montmul_of_eq_zero (rd rs1 rs2 : RegNo) (hm : s.x rm = 0) :
    exec (.montmul rd rs1 rs2 rm) s = .next (s.raise .modulusZero) := if_pos hm

theorem exec_montmul_of_even (rd rs1 rs2 : RegNo) (hm : s.x rm ≠ 0) (he : s.x rm % 2 = 0) :
    exec (.montmul rd rs1 rs2 rm) s = .next (s.raise .modulusEven) := (if_neg hm).trans (if_pos he)

theorem exec_montr2_of_odd (rd : RegNo) (hm : s.x rm % 2 = 1) :
    exec (.montr2 rd rm) s = .next (s.finishWith rd (radixSquare s.width (s.x rm))) :=
  (if_neg (by omega)).trans (if_neg (by omega))

theorem exec_montr2_of_eq_zero (rd : RegNo) (hm : s.x rm = 0) :
    exec (.montr2 rd rm) s = .next (s.raise .modulusZero) := if_pos hm

theorem exec_montr2_of_even (rd : RegNo) (hm : s.x rm ≠ 0) (he : s.x rm % 2 = 0) :
    exec (.montr2 rd rm) s = .next (s.raise .modulusEven) := (if_neg hm).trans (if_pos he)

/-- MONTMUL with the product of R111 written out, for any `rinv` that meets R110. -/
theorem exec_montmul_of_isInverse (rd rs1 rs2 : RegNo) {rinv : Nat} (hm : s.x rm % 2 = 1)
    (h : IsInverse (2 ^ s.width) (s.x rm) rinv) :
    exec (.montmul rd rs1 rs2 rm) s = .next (resultState s rd (s.x rs1 * s.x rs2 * rinv % s.x rm)) := by
  have hr : radixInverse s.width (s.x rm) = rinv := (radixInverse_isInverse hm).unique (gcd_radix hm) h
  rw [exec_montmul_of_odd rd rs1 rs2 hm, montProduct, hr, State.finishWith_eq_resultState]

/-- R81's formula for MONTMUL, with the opcode byte in its place. -/
theorem encode_montmul (rd rs1 rs2 rm : RegNo) : encode (.montmul rd rs1 rs2 rm) =
    BitVec.ofNat 32 (0x02000000 + rd.val * 2 ^ 20 + rs1.val * 2 ^ 16 + rs2.val * 2 ^ 12 + rm.val * 2 ^ 8) := by
  simp [encode, wordValue]

/-- R81's formula for MONTR2, whose unused fields are zero. -/
theorem encode_montr2 (rd rm : RegNo) : encode (.montr2 rd rm) =
    BitVec.ofNat 32 (0x03000000 + rd.val * 2 ^ 20 + rm.val * 2 ^ 8) := by
  simp [encode, wordValue]

end Sys2Proof.Machine
end

section
/-! PROOFS. The Montgomery commands and their arithmetic (O26, O27, O40, O41). -/

namespace Sys2Proof.Machine

/-- Settles O26: the cases of the modulus; R110's inverse exists and is unique because the modulus is odd. -/
theorem montmulResult : Obligations.MontmulResult := by
  intro s rd rs1 rs2 rm
  refine ⟨fun hm => ?_, fun rinv hlt hinv hm => ?_, fun hm => ?_, fun hm he => ?_, ?_⟩
  · have hi : IsInverse (2 ^ s.width) (s.x rm) (radixInverse s.width (s.x rm)) := radixInverse_isInverse hm
    exact ⟨_, hi.1, hi.2, exec_montmul_of_isInverse rd rs1 rs2 hm hi⟩
  · exact exec_montmul_of_isInverse rd rs1 rs2 hm ⟨hlt, hinv⟩
  · rw [exec_montmul_of_eq_zero rd rs1 rs2 hm, State.raise_eq_errorState, CmdError.code]
  · rw [exec_montmul_of_even rd rs1 rs2 hm he, State.raise_eq_errorState, CmdError.code]
  · rw [← encode_montmul]
    exact decode_encode rfl

/-- Settles O27: the cases of the modulus, and the decoder's law on MONTR2's word. -/
theorem montr2Result : Obligations.Montr2Result := by
  intro s rd rm
  refine ⟨fun hm => ?_, fun hm => ?_, fun hm he => ?_, ?_⟩
  · rw [exec_montr2_of_odd rd hm, State.finishWith_eq_resultState, radixSquare, State.width]
  · rw [exec_montr2_of_eq_zero rd hm, State.raise_eq_errorState, CmdError.code]
  · rw [exec_montr2_of_even rd hm he, State.raise_eq_errorState, CmdError.code]
  · rw [← encode_montr2]
    exact decode_encode rfl

/-- Settles O40: a factor `R^2` takes a number into Montgomery form, a factor 1 takes it out, and `a*b mod m` is the
only number below `m` with the congruence either law ends in. -/
theorem montgomeryLaws : Obligations.MontgomeryLaws := by
  intro w a b m hm
  constructor
  · calc montProduct w (montProduct w a b m) (radixSquare w m) m
        = montProduct w (montProduct w a b m) (radixSquare w m) m % m := (Nat.mod_mod _ _).symm
      _ = montProduct w a b m * 2 ^ w % m := montProduct_radixSquare_modEq hm
      _ = a * b % m := montProduct_mul_radix hm
  · have hform := montProduct_modEq_of_montgomery_form hm
      (montProduct_radixSquare_modEq (w := w) (a := a) hm) (montProduct_radixSquare_modEq (a := b) hm)
    refine (montProduct_eq_iff hm).mpr ⟨Nat.mod_lt _ (by omega), ?_⟩
    rw [mul_one]
    exact ((Nat.mod_modEq _ _).mul_right _).trans hform.symm

/-- Settles O41: the division by `R` is exact and leaves less than `2*m`, so the subtraction gives the one number below
`m` with the product's congruence. -/
theorem referenceReductionAgrees : Obligations.ReferenceReductionAgrees := by
  intro w a b m hm hmw ha hb
  have hprod : a * b < 2 ^ w * m := mul_lt_mul'' (ha.trans hmw) hb (Nat.zero_le _) (Nat.zero_le _)
  rw [montReduce_eq, conditional_sub_eq_mod (reduceOnce_lt (by omega) hprod)]
  refine ((montProduct_eq_iff hm).mpr ⟨Nat.mod_lt _ (by omega), ?_⟩).symm
  exact ((Nat.mod_modEq _ _).mul_right _).trans (reduceOnce_mul_radix_modEq hm _)

end Sys2Proof.Machine
end

section
/-! SUPPORT. The cases of POWMOD (R120) and its word; the power law on which a signature scheme rests (R124). -/

namespace Sys2Proof.Machine

variable {s : State} {rs2 rm : RegNo}

theorem exec_powmod_of_eq_zero (rd rs1 rs2 : RegNo) (hm : s.x rm = 0) :
    exec (.powmod rd rs1 rs2 rm) s = .next (s.raise .modulusZero) := if_pos hm

theorem exec_powmod_of_ne_zero (rd rs1 rs2 : RegNo) (hm : s.x rm ≠ 0) :
    exec (.powmod rd rs1 rs2 rm) s = .next (s.finishWith rd (powModOf (s.x rs1) (s.x rs2) (s.x rm))) := if_neg hm

theorem exec_powmod_of_exponent_zero (rd rs1 : RegNo) (hm : s.x rm ≠ 0) (he : s.x rs2 = 0) :
    exec (.powmod rd rs1 rs2 rm) s = .next (s.finishWith rd 1) := by
  rw [exec_powmod_of_ne_zero rd rs1 rs2 hm, he, powModOf_zero]

theorem exec_powmod_of_exponent_ne_zero (rd rs1 : RegNo) (hm : s.x rm ≠ 0) (he : s.x rs2 ≠ 0) :
    exec (.powmod rd rs1 rs2 rm) s = .next (s.finishWith rd (s.x rs1 ^ s.x rs2 % s.x rm)) := by
  rw [exec_powmod_of_ne_zero rd rs1 rs2 hm, powModOf_pos _ _ _ (Nat.pos_of_ne_zero he)]

/-- R81's formula for POWMOD, with the opcode byte in its place. -/
theorem encode_powmod (rd rs1 rs2 rm : RegNo) : encode (.powmod rd rs1 rs2 rm) =
    BitVec.ofNat 32 (0x04000000 + rd.val * 2 ^ 20 + rs1.val * 2 ^ 16 + rs2.val * 2 ^ 12 + rm.val * 2 ^ 8) := by
  simp [encode, wordValue]

/-- Only `p = q = 2` would make every exponent an inverse of every other. -/
theorem lcm_pred_ne_one {p q : Nat} (hpq : p ≠ q) : Nat.lcm (p - 1) (q - 1) ≠ 1 := fun h => by
  obtain ⟨hp, hq⟩ := Nat.lcm_eq_one_iff.mp h
  omega

/-- Exponents that are inverse modulo `lcm(p-1, q-1)` have a product that is not 0. -/
theorem pos_of_modEq_one_lcm_pred {p q k : Nat} (hpq : p ≠ q) (hk : k ≡ 1 [MOD Nat.lcm (p - 1) (q - 1)]) : 0 < k := by
  refine Nat.pos_of_ne_zero fun h0 => lcm_pred_ne_one hpq (Nat.dvd_one.mp ?_)
  rw [h0] at hk
  exact Nat.modEq_zero_iff_dvd.mp hk.symm

/-- Fermat's little theorem for every base, also a multiple of `p`. -/
theorem pow_modEq_self_of_prime {p k : Nat} (hp : p.Prime) (hk : 0 < k) (h : p - 1 ∣ k - 1) (a : Nat) :
    a ^ k ≡ a [MOD p] := by
  have hz := Int.ModEq.pow_eq_pow hp h hk one_pos a
  rw [pow_one] at hz
  exact_mod_cast hz

/-- A power by an exponent that is 1 modulo `lcm(p-1, q-1)` changes no residue modulo `p*q` (R124). -/
theorem pow_modEq_self_of_modEq_one {p q k : Nat} (hp : p.Prime) (hq : q.Prime) (hpq : p ≠ q)
    (hk : k ≡ 1 [MOD Nat.lcm (p - 1) (q - 1)]) (a : Nat) : a ^ k ≡ a [MOD p * q] := by
  have hpos : 0 < k := pos_of_modEq_one_lcm_pred hpq hk
  have hdvd : Nat.lcm (p - 1) (q - 1) ∣ k - 1 := (Nat.modEq_iff_dvd' hpos).mp hk.symm
  refine (Nat.modEq_and_modEq_iff_modEq_mul ((Nat.coprime_primes hp hq).mpr hpq)).mp ⟨?_, ?_⟩
  · exact pow_modEq_self_of_prime hp hpos ((Nat.dvd_lcm_left _ _).trans hdvd) a
  · exact pow_modEq_self_of_prime hq hpos ((Nat.dvd_lcm_right _ _).trans hdvd) a

end Sys2Proof.Machine
end

section
/-! PROOFS. The result of POWMOD, and a signature's verification (O28, O42). -/

namespace Sys2Proof.Machine

/-- Settles O28: one rule for each case of the modulus and the exponent, and the decoder's law on POWMOD's word. -/
theorem powmodResult : Obligations.PowmodResult := by
  intro s rd rs1 rs2 rm
  refine ⟨fun hm => ?_, fun hm he => ?_, fun hm he => ?_, ?_⟩
  · rw [exec_powmod_of_eq_zero rd rs1 rs2 hm, State.raise_eq_errorState, CmdError.code]
  · rw [exec_powmod_of_exponent_zero rd rs1 hm he, State.finishWith_eq_resultState]
  · rw [exec_powmod_of_exponent_ne_zero rd rs1 hm he, State.finishWith_eq_resultState]
  · rw [← encode_powmod]
    exact decode_encode rfl

/-- Settles O42: the signing command leaves the modulus and the public exponent as they were, so the two commands raise
the message to the product of the exponents, which is 1 modulo `lcm(p-1, q-1)`. -/
theorem signThenVerifyRecoversTheMessage : Obligations.SignThenVerifyRecoversTheMessage := by
  intro s t p q rs rv rmsg rdexp reexp rm hp hq hpq hn hmsg hde hrm hre hsign
  have hn0 : s.x rm ≠ 0 := by omega
  obtain ⟨hd, he⟩ := Nat.mul_ne_zero_iff.mp (pos_of_modEq_one_lcm_pred hpq hde).ne'
  rw [exec_powmod_of_exponent_ne_zero rs rmsg hn0 hd] at hsign
  have ht : s.finishWith rs (s.x rmsg ^ s.x rdexp % s.x rm) = t := Host.Outcome.next.inj hsign
  have hmod : t.x rm = s.x rm := by rw [← ht, State.finishWith_x, if_neg hrm.symm]
  have hexp : t.x reexp = s.x reexp := by rw [← ht, State.finishWith_x, if_neg hre.symm]
  have hsig : t.x rs = s.x rmsg ^ s.x rdexp % s.x rm := by rw [← ht, State.finishWith_x, if_pos rfl]
  have hmessage : t.x rs ^ t.x reexp % t.x rm = s.x rmsg := by
    calc t.x rs ^ t.x reexp % t.x rm
        = s.x rmsg ^ (s.x rdexp * s.x reexp) % s.x rm := by rw [hsig, hexp, hmod, ← Nat.pow_mod, ← pow_mul]
      _ = s.x rmsg % s.x rm := by rw [hn]; exact pow_modEq_self_of_modEq_one hp hq hpq hde _
      _ = s.x rmsg := Nat.mod_eq_of_lt hmsg
  rw [exec_powmod_of_exponent_ne_zero rv rs (hmod ▸ hn0) (hexp ▸ he), hmessage, State.finishWith_eq_resultState]

end Sys2Proof.Machine
end

section
/-! SUPPORT. The cases of GCD (R130) and MODINV (R132), and their words. -/

namespace Sys2Proof.Machine

variable {s : State} {rs1 rm : RegNo}

theorem exec_gcd (s : State) (rd rs1 rs2 : RegNo) :
    exec (.gcd rd rs1 rs2) s = .next (s.finishWith rd (Nat.gcd (s.x rs1) (s.x rs2))) := by
  rw [← gcdOf_eq_gcd]
  rfl

theorem exec_modinv_of_eq_zero (rd rs1 : RegNo) (hm : s.x rm = 0) :
    exec (.modinv rd rs1 rm) s = .next (s.raise .modulusZero) := if_pos hm

theorem exec_modinv_of_not_coprime (rd : RegNo) (hm : s.x rm ≠ 0) (hg : Nat.gcd (s.x rs1) (s.x rm) ≠ 1) :
    exec (.modinv rd rs1 rm) s = .next (s.raise .noInverse) :=
  (if_neg hm).trans (by rw [inverseOf_none hg])

/-- MODINV answers any number that meets R132. -/
theorem exec_modinv_of_isInverse (rd : RegNo) {t : Nat} (hm : s.x rm ≠ 0) (hg : Nat.gcd (s.x rs1) (s.x rm) = 1)
    (ht : IsInverse (s.x rs1) (s.x rm) t) :
    exec (.modinv rd rs1 rm) s = .next (s.finishWith rd t) :=
  (if_neg hm).trans (by rw [(inverseOf_eq_some_iff (Nat.pos_of_ne_zero hm)).mpr ⟨hg, ht⟩])

/-- R81's formula for GCD, whose unused fields are zero. -/
theorem encode_gcd (rd rs1 rs2 : RegNo) : encode (.gcd rd rs1 rs2) =
    BitVec.ofNat 32 (0x05000000 + rd.val * 2 ^ 20 + rs1.val * 2 ^ 16 + rs2.val * 2 ^ 12) := by
  simp [encode, wordValue]

/-- R81's formula for MODINV, whose unused fields are zero. -/
theorem encode_modinv (rd rs1 rm : RegNo) : encode (.modinv rd rs1 rm) =
    BitVec.ofNat 32 (0x06000000 + rd.val * 2 ^ 20 + rs1.val * 2 ^ 16 + rm.val * 2 ^ 8) := by
  simp [encode, wordValue]

end Sys2Proof.Machine
end

section
/-! PROOFS. The results of GCD and MODINV (O29, O30). -/

namespace Sys2Proof.Machine

/-- Settles O29: the model's Euclidean loop is the gcd, and the decoder's law on GCD's word. -/
theorem gcdResult : Obligations.GcdResult := by
  intro s rd rs1 rs2
  constructor
  · rw [exec_gcd, State.finishWith_eq_resultState]
  · rw [← encode_gcd]
    exact decode_encode rfl

/-- Settles O30: one rule for each case of the modulus and the gcd; the inverse exists, and is unique because the
operand is coprime to the modulus. -/
theorem modinvResult : Obligations.ModinvResult := by
  intro s rd rs1 rm
  refine ⟨fun hm => ?_, fun hm hg => ?_, fun hm hg => ?_, ?_⟩
  · rw [exec_modinv_of_eq_zero rd rs1 hm, State.raise_eq_errorState, CmdError.code]
  · rw [exec_modinv_of_not_coprime rd hm hg, State.raise_eq_errorState, CmdError.code]
  · obtain ⟨t, -, ht⟩ := inverseOf_some (Nat.pos_of_ne_zero hm) hg
    refine ⟨t, ht, fun u hu hinv => IsInverse.unique hg ⟨hu, hinv⟩ ht, ?_⟩
    rw [exec_modinv_of_isInverse rd hm hg ht, State.finishWith_eq_resultState]
  · rw [← encode_modinv]
    exact decode_encode rfl

end Sys2Proof.Machine
end

section
/-! SUPPORT. The value of LAMBDA is a least common multiple, below the product of its operands; the cases of LAMBDA
(R140) and its word. -/

namespace Sys2Proof.Machine

/-- The formula of R140 is Mathlib's least common multiple, whose definition is the same quotient. -/
theorem carmichaelOf_eq_lcm (p q : Nat) : carmichaelOf p q = Nat.lcm (p - 1) (q - 1) := by
  rw [carmichaelOf, gcdOf_eq_gcd, Nat.lcm]

theorem lcm_pred_lt_mul {p q : Nat} (hp : 0 < p) (hq : 0 < q) : Nat.lcm (p - 1) (q - 1) < p * q :=
  calc Nat.lcm (p - 1) (q - 1) ≤ (p - 1) * (q - 1) := Nat.div_le_self _ _
    _ < p * q := mul_lt_mul'' (Nat.pred_lt_self hp) (Nat.pred_lt_self hq) (Nat.zero_le _) (Nat.zero_le _)

variable {s : State} {rs1 rs2 : RegNo}

theorem exec_lambda_of_lt_two (rd : RegNo) (h : s.x rs1 < 2 ∨ s.x rs2 < 2) :
    exec (.lambda rd rs1 rs2) s = .next (s.raise .operandRange) := if_pos h

theorem exec_lambda_of_two_le (rd : RegNo) (hp : 2 ≤ s.x rs1) (hq : 2 ≤ s.x rs2) :
    exec (.lambda rd rs1 rs2) s =
      if 2 ^ s.width ≤ Nat.lcm (s.x rs1 - 1) (s.x rs2 - 1) then .next (s.raise .resultOverflow)
      else .next (s.finishWith rd (Nat.lcm (s.x rs1 - 1) (s.x rs2 - 1))) := by
  rw [← carmichaelOf_eq_lcm]
  exact if_neg (by omega)

theorem exec_lambda_of_overflow (rd : RegNo) (hp : 2 ≤ s.x rs1) (hq : 2 ≤ s.x rs2)
    (hover : 2 ^ s.width ≤ Nat.lcm (s.x rs1 - 1) (s.x rs2 - 1)) :
    exec (.lambda rd rs1 rs2) s = .next (s.raise .resultOverflow) :=
  (exec_lambda_of_two_le rd hp hq).trans (if_pos hover)

theorem exec_lambda_of_fits (rd : RegNo) (hp : 2 ≤ s.x rs1) (hq : 2 ≤ s.x rs2)
    (hfits : Nat.lcm (s.x rs1 - 1) (s.x rs2 - 1) < 2 ^ s.width) :
    exec (.lambda rd rs1 rs2) s = .next (s.finishWith rd (Nat.lcm (s.x rs1 - 1) (s.x rs2 - 1))) :=
  (exec_lambda_of_two_le rd hp hq).trans (if_neg (not_le.mpr hfits))

/-- R81's formula for LAMBDA, whose unused fields are zero. -/
theorem encode_lambda (rd rs1 rs2 : RegNo) : encode (.lambda rd rs1 rs2) =
    BitVec.ofNat 32 (0x07000000 + rd.val * 2 ^ 20 + rs1.val * 2 ^ 16 + rs2.val * 2 ^ 12) := by
  simp [encode, wordValue]

end Sys2Proof.Machine
end

section
/-! PROOFS. The result of LAMBDA, and that it cannot overflow where the product of its operands fits (O31, O32). -/

namespace Sys2Proof.Machine

/-- Settles O31: one rule for each case of the operands and of the least common multiple, and the decoder's law on
LAMBDA's word. -/
theorem lambdaResult : Obligations.LambdaResult := by
  intro s rd rs1 rs2
  refine ⟨fun h => ?_, fun hp hq => ⟨rfl, fun hover => ?_, fun hfits => ?_⟩, ?_⟩
  · rw [exec_lambda_of_lt_two rd h, State.raise_eq_errorState, CmdError.code]
  · rw [exec_lambda_of_overflow rd hp hq hover, State.raise_eq_errorState, CmdError.code]
  · rw [exec_lambda_of_fits rd hp hq hfits, State.finishWith_eq_resultState, Nat.lcm]
  · rw [← encode_lambda]
    exact decode_encode rfl

/-- Settles O32: the least common multiple is below the product of the operands, so it fits where the product does. -/
theorem lambdaOfAFittingModulusCompletes : Obligations.LambdaOfAFittingModulusCompletes := by
  intro s rd rs1 rs2 hp hq hfits
  have hlt : Nat.lcm (s.x rs1 - 1) (s.x rs2 - 1) < s.x rs1 * s.x rs2 := lcm_pred_lt_mul (by omega) (by omega)
  refine ⟨_, hlt, rfl, ?_⟩
  rw [exec_lambda_of_fits rd hp hq (hlt.trans hfits), State.finishWith_eq_resultState]

end Sys2Proof.Machine
end

section
/-! SUPPORT. The decomposition of R150 is the only one; a prime passes every round (R153). -/

namespace Sys2Proof.Machine

/-- A power of 2 that divides `2^s * q` with an odd `q` is at most `2^s`. -/
theorem exponent_le_of_two_pow_mul_eq {k r s q : Nat} (hq : q % 2 = 1) (h : 2 ^ k * r = 2 ^ s * q) : k ≤ s := by
  have hcop : Nat.Coprime (2 ^ k) q := (Nat.coprime_two_left.mpr (Nat.odd_iff.mpr hq)).pow_left k
  have hdvd : 2 ^ k ∣ 2 ^ s := hcop.dvd_of_dvd_mul_right ⟨r, h.symm⟩
  exact (Nat.pow_dvd_pow_iff_le_right one_lt_two).mp hdvd

theorem two_pow_mul_odd_unique {k r s q : Nat} (hr : r % 2 = 1) (hq : q % 2 = 1) (h : 2 ^ k * r = 2 ^ s * q) :
    k = s ∧ r = q := by
  have hks : k = s := le_antisymm (exponent_le_of_two_pow_mul_eq hq h) (exponent_le_of_two_pow_mul_eq hr h.symm)
  rw [hks] at h
  exact ⟨hks, Nat.eq_of_mul_eq_mul_left (by positivity) h⟩

/-- `decomp n` is the one pair of R150. -/
theorem eq_decomp_iff {n k r : Nat} (hn : 2 ≤ n) : n - 1 = 2 ^ k * r ∧ r % 2 = 1 ↔ (k, r) = decomp n := by
  obtain ⟨he, ho⟩ := decomp_spec hn
  constructor
  · rintro ⟨hkr, hr⟩
    exact Prod.ext_iff.mpr (two_pow_mul_odd_unique hr ho (hkr.symm.trans he))
  · intro h
    rw [← h] at he ho
    exact ⟨he, ho⟩

/-- Where 1 has no square roots but 1 and -1, the repeated squares of `y` reach 1 only from `y = 1` or over -1. -/
theorem eq_one_or_reaches_neg_one {R : Type*} [CommRing R] [IsDomain R] {y : R} (k : Nat) (h : y ^ 2 ^ k = 1) :
    y = 1 ∨ ∃ j < k, y ^ 2 ^ j = -1 := by
  induction k with
  | zero => exact .inl (by simpa using h)
  | succ k ih =>
    rw [pow_succ, pow_mul, sq, mul_self_eq_one_iff] at h
    rcases h with h1 | h1
    · exact (ih h1).imp_right fun ⟨j, hj, e⟩ => ⟨j, by omega, e⟩
    · exact .inr ⟨k, by omega, h1⟩

theorem mod_eq_of_cast_eq {n b c : Nat} (hc : c < n) (h : (b : ZMod n) = c) : b % n = c :=
  ((ZMod.natCast_eq_natCast_iff' b c n).mp h).trans (Nat.mod_eq_of_lt hc)

/-- R153 (c): every witness below a prime `n` passes the round. -/
theorem roundPasses_of_prime {a n : Nat} (hn : n.Prime) (ha : 0 < a) (han : a < n) : roundPasses a n = true := by
  have : Fact n.Prime := ⟨hn⟩
  obtain ⟨hdec, -⟩ := decomp_spec hn.two_le
  have ha0 : (a : ZMod n) ≠ 0 := fun h => Nat.not_dvd_of_pos_of_lt ha han ((ZMod.natCast_eq_zero_iff _ _).mp h)
  have hfermat : ((a : ZMod n) ^ (decomp n).2) ^ 2 ^ (decomp n).1 = 1 := by
    rw [← pow_mul, mul_comm, ← hdec]
    exact ZMod.pow_card_sub_one_eq_one ha0
  rw [roundPasses_iff hn.two_le]
  rcases eq_one_or_reaches_neg_one _ hfermat with h1 | ⟨j, hj, h1⟩
  · exact .inl (mod_eq_of_cast_eq hn.one_lt (by exact_mod_cast h1))
  · refine .inr ⟨j, by omega, ?_⟩
    have hpred : ((n - 1 : Nat) : ZMod n) = -1 := by rw [Nat.cast_pred hn.pos, ZMod.natCast_self, zero_sub]
    rw [← Nat.pow_mod]
    exact mod_eq_of_cast_eq (Nat.pred_lt_self hn.pos) (by rw [hpred]; exact_mod_cast h1)

end Sys2Proof.Machine
end

section
/-! SUPPORT. The cases of MRROUND (R152) and its word; the engine steps of MRTEST (R156). -/

namespace Sys2Proof.Machine

/-- A verdict as the obligations write it out (R28, R36). -/
theorem State.finishVerdict_eq_verdictState (s : State) (b : Bool) : s.finishVerdict b = verdictState s b := rfl

theorem exec_mrround_out_of_range {s : State} {rs1 rm : RegNo} (h : s.x rm < 4 ∨ s.x rs1 < 2 ∨ s.x rm - 2 < s.x rs1) :
    exec (.mrround rs1 rm) s = .next (s.raise .witnessRange) := if_pos h

theorem exec_mrround_in_range {s : State} {rs1 rm : RegNo} (hn : 4 ≤ s.x rm) (h2 : 2 ≤ s.x rs1)
    (ha : s.x rs1 ≤ s.x rm - 2) :
    exec (.mrround rs1 rm) s = .next (s.finishVerdict (roundPasses (s.x rs1) (s.x rm))) := if_neg (by omega)

/-- R81's formula for MRROUND, whose unused fields are zero. -/
theorem encode_mrround (rs1 rm : RegNo) : encode (.mrround rs1 rm) =
    BitVec.ofNat 32 (0x08000000 + rs1.val * 2 ^ 16 + rm.val * 2 ^ 8) := by
  simp [encode, wordValue]

section
variable {s : State} {f : Inflight} {rm : RegNo} {iters : Nat} (hf : s.inflight = some f)
include hf

theorem exec_mrtest_complete_early (iters : Nat) (hp : f.pending = none) (h0 : f.round = 0) (hn : s.x rm < 4) :
    exec (.mrtest rm iters) s = .next (s.finishVerdict (s.x rm = 2 ∨ s.x rm = 3)) := by
  simp [exec, execMrtest, State.pending_of_inflight hf, State.round_of_inflight hf, hp, h0, hn]

theorem exec_mrtest_complete_prime (hp : f.pending = none) (hn : 4 ≤ s.x rm) (hi : f.round = iters) :
    exec (.mrtest rm iters) s = .next (s.finishVerdict true) := by
  simp [exec, execMrtest, State.pending_of_inflight hf, State.round_of_inflight hf, hp, hi, hn.not_gt]

theorem exec_mrtest_issue (hp : f.pending = none) (hn : 4 ≤ s.x rm) (hi : f.round < iters) :
    exec (.mrtest rm iters) s = .next { s with inflight := some { f with pending := some (s.x rm - 3) } } := by
  simp [exec, execMrtest, State.pending_of_inflight hf, State.round_of_inflight hf, hp, hi, hi.ne, hn.not_gt,
    State.issueRequest, hf]

variable {b : Nat} (hp : f.pending = some b)
include hp

theorem exec_mrtest_unanswered (rm : RegNo) (iters : Nat) (hr : s.rngReply = none) :
    exec (.mrtest rm iters) s = .next s := by
  simp [exec, execMrtest, State.pending_of_inflight hf, hp, hr]

variable {v : Nat} (hv : s.rngReply = some v)
include hv

theorem exec_mrtest_answered (rm : RegNo) (iters : Nat) :
    exec (.mrtest rm iters) s = .next (s.answerRound (s.x rm) v) := by
  simp [exec, execMrtest, State.pending_of_inflight hf, hp, hv]

theorem exec_mrtest_answer_out_of_range (iters : Nat) (h : s.x rm - 3 ≤ v) :
    exec (.mrtest rm iters) s = .next (errorState { s with rngReply := none } 0x07) := by
  rw [exec_mrtest_answered hf hp hv, State.answerRound, if_pos h]
  rfl

theorem exec_mrtest_round_passes (iters : Nat) (h : v < s.x rm - 3) (hpass : roundPasses (v + 2) (s.x rm) = true) :
    exec (.mrtest rm iters) s = .next { s with
      rngReply := none, inflight := some { f with round := f.round + 1, pending := none } } := by
  rw [exec_mrtest_answered hf hp hv, State.answerRound, if_neg h.not_ge, if_pos hpass]
  simp [State.consumeReply, State.nextRound, hf]

theorem exec_mrtest_round_fails (iters : Nat) (h : v < s.x rm - 3) (hfail : roundPasses (v + 2) (s.x rm) = false) :
    exec (.mrtest rm iters) s = .next (verdictState { s with rngReply := none } false) := by
  rw [exec_mrtest_answered hf hp hv, State.answerRound, if_neg h.not_ge, if_neg (by rw [hfail]; decide)]
  rfl

end

end Sys2Proof.Machine
end

section
/-! PROOFS. The decomposition and the round (O34); MRROUND, also on primes (O33, O38); the steps of MRTEST (O35). -/

namespace Sys2Proof.Machine

/-- Settles O34: the decomposition is unique, and the model's round meets R151's equivalent form. -/
theorem roundPredicateIsMillerRabins : Obligations.RoundPredicateIsMillerRabins := by
  intro n hn
  refine ⟨fun k r => eq_decomp_iff hn, fun a _ _ _ => ?_⟩
  rw [roundPasses_iff hn, Nat.max_zero]

/-- Settles O33: one rule for each case of the witness, R151's equivalent form for the verdict, and the decoder's law on
MRROUND's word. -/
theorem mrroundResult : Obligations.MrroundResult := by
  intro s rs1 rm
  refine ⟨fun h => ?_, fun hn h2 ha => ?_, ?_⟩
  · rw [exec_mrround_out_of_range h, State.raise_eq_errorState, CmdError.code]
  · have hn2 : 2 ≤ s.x rm := by omega
    obtain ⟨hdec, hodd⟩ := decomp_spec hn2
    refine ⟨_, _, roundPasses (s.x rs1) (s.x rm), hdec, hodd, ?_, ?_⟩
    · rw [exec_mrround_in_range hn h2 ha, State.finishVerdict_eq_verdictState]
    · simp only [roundPasses_iff hn2, ← Nat.pow_mod]
  · rw [← encode_mrround]
    exact decode_encode rfl

/-- Settles O38: the witness is in range, and a prime passes every round. -/
theorem mrroundPassesEveryPrime : Obligations.MrroundPassesEveryPrime := by
  intro s rs1 rm hprime h5 h2 ha
  rw [exec_mrround_in_range (by omega) h2 ha, roundPasses_of_prime hprime (by omega) (by omega),
    State.finishVerdict_eq_verdictState]

/-- Settles O35: one rule for each step of R156. -/
theorem mrtestSteps : Obligations.MrtestSteps := by
  intro s f rm iters hf
  refine ⟨fun hp h0 hn => ?_, fun hp hn hi => ?_, exec_mrtest_issue hf, fun hp hr => ?_, fun v hp hv => ⟨?_, ?_, ?_⟩⟩
  · rw [exec_mrtest_complete_early hf iters hp h0 hn, State.finishVerdict_eq_verdictState]
  · rw [exec_mrtest_complete_prime hf hp hn hi, State.finishVerdict_eq_verdictState]
  · exact exec_mrtest_unanswered hf hp rm iters hr
  · exact exec_mrtest_answer_out_of_range hf hp hv iters
  · exact exec_mrtest_round_passes hf hp hv iters
  · exact exec_mrtest_round_fails hf hp hv iters

end Sys2Proof.Machine
end

section
/-! SUPPORT. The run of an MRTEST on a list of draws, round by round (R156), against `MRTestOutcome` (R157). -/

namespace Sys2Proof.Machine

theorem mrTestOutcome_of_lt_two {n : Nat} (iters : Nat) (draws : List Nat) (hn : n < 2) :
    mrTestOutcome n iters draws = some (.composite, 0) := if_pos hn

theorem mrTestOutcome_of_lt_four {n : Nat} (iters : Nat) (draws : List Nat) (h2 : 2 ≤ n) (hn : n < 4) :
    mrTestOutcome n iters draws = some (.prime, 0) := (if_neg h2.not_gt).trans (if_pos hn)

theorem mrTestOutcome_of_four_le {n : Nat} (iters : Nat) (draws : List Nat) (hn : 4 ≤ n) :
    mrTestOutcome n iters draws = mrRounds n iters 0 draws := (if_neg (by omega)).trans (if_neg hn.not_gt)

/-- The state in which an MRTEST leaves the unit with this outcome. -/
def State.withOutcome (s : State) (o : MrOutcome) : State :=
  match o with
  | .composite => verdictState s false
  | .prime => verdictState s true
  | .witnessRange => errorState s 0x07

/-- The end of a test does not see the record in flight, nor the port's value that the last answer has consumed. -/
theorem State.withOutcome_of_answered {s : State} (o : MrOutcome) (hr : s.rngReply = none) {g : Option Inflight}
    {es : List Event} : State.withOutcome { s with script := es, rngReply := none, inflight := g } o =
      { s.withOutcome o with script := es } := by
  cases o <;> simp [State.withOutcome, verdictState, errorState, hr]

/-- The engine turns after the last answer: complete-prime is one, and the other outcomes come with an answer (R156). -/
def MrOutcome.closingTurns (o : MrOutcome) : Nat :=
  match o with
  | .composite => 0
  | .prime => 1
  | .witnessRange => 0

/-- Where a prime passes every round and every draw is in range, all rounds run and pass. -/
theorem mrRounds_of_prime {n : Nat} (hn : n.Prime) {left made : Nat} {draws : List Nat} {o : MrOutcome} {k : Nat}
    (hdraws : ∀ v ∈ draws, v < n - 3) (h : mrRounds n left made draws = some (o, k)) : o = .prime ∧ k = made + left := by
  induction left generalizing made draws with
  | zero => simpa [mrRounds, eq_comm] using h
  | succ left ih =>
    cases draws with
    | nil => simp [mrRounds] at h
    | cons v draws =>
      obtain ⟨hv, hrest⟩ := List.forall_mem_cons.mp hdraws
      have hpass : roundPasses (v + 2) n = true := roundPasses_of_prime hn (by omega) (by omega)
      rw [mrRounds, if_neg hv.not_ge, if_pos hpass] at h
      obtain ⟨ho, hk⟩ := ih hrest h
      exact ⟨ho, by omega⟩

variable {s : State} {f : Inflight} {rm : RegNo} {iters : Nat} {draws : List Nat}

/-- On a list of draws the engine has the next turn, also where no draw is left. -/
theorem step_drawEvents {i : Instr} (hf : s.inflight = some f) (hd : decode f.word = .ok i)
    (hs : s.script = drawEvents draws) : step s = exec i { s with script := s.script.drop 1 } := by
  cases draws with
  | nil =>
    have hnil : s.script = [] := hs
    have hsame : { s with script := s.script.drop 1 } = s := by cases s; cases hnil; rfl
    rw [step_nil hnil, engineTurn_decoded hf hd, hsame]
  | cons v draws => rw [step_engine hs hf hd, hs]; rfl

/-- The two turns of a round: the request is issued, and the answer is taken. -/
theorem runSteps_round (m : Nat) {v : Nat} {t : State} (hf : s.inflight = some f) (hp : f.pending = none)
    (hd : decode f.word = .ok (.mrtest rm iters)) (hn : 4 ≤ s.x rm) (hi : f.round < iters)
    (hs : s.script = drawEvents (v :: draws))
    (ht : exec (.mrtest rm iters) { s with
      script := drawEvents draws, rngReply := some v,
      inflight := some { f with pending := some (s.x rm - 3) } } = .next t) :
    runSteps (m + 2) s = runSteps m t := by
  have hissue : step s = .next { s with
      script := .rngAnswer v :: drawEvents draws, inflight := some { f with pending := some (s.x rm - 3) } } :=
    (step_engine hs hf hd).trans (exec_mrtest_issue hf hp hn hi)
  rw [runSteps_succ (m + 1) hissue]
  obtain ⟨-, -, hanswer⟩ := stepRunsTheDecodedCommand { s with
    script := .rngAnswer v :: drawEvents draws, inflight := some { f with pending := some (s.x rm - 3) } } _ _
    (drawEvents draws) rfl hd
  exact runSteps_succ m ((hanswer _ v rfl rfl).trans ht)

/-- The rounds still to run, from a state between two rounds, end as `mrRounds` says, after two turns for each
transaction. -/
theorem runSteps_mrRounds (left : Nat) {o : MrOutcome} {k : Nat} (hf : s.inflight = some f) (hp : f.pending = none)
    (hd : decode f.word = .ok (.mrtest rm iters)) (hn : 4 ≤ s.x rm) (hi : f.round + left = iters)
    (hr : s.rngReply = none) (hs : s.script = drawEvents draws)
    (h : mrRounds (s.x rm) left f.round draws = some (o, k)) :
    ∃ m ≤ draws.length, k = f.round + m ∧ runSteps (2 * m + o.closingTurns) s
      = .next { s.withOutcome o with script := s.script.drop (2 * m + o.closingTurns) } := by
  induction left generalizing s f draws with
  | zero =>
    obtain ⟨rfl, rfl⟩ : .prime = o ∧ f.round = k := by simpa [mrRounds] using h
    refine ⟨0, Nat.zero_le _, rfl, ?_⟩
    exact (runSteps_one s).trans ((step_drawEvents hf hd hs).trans (exec_mrtest_complete_prime hf hp hn hi))
  | succ left ih =>
    cases draws with
    | nil => simp [mrRounds] at h
    | cons v draws =>
      have hround := fun m t => runSteps_round (t := t) m hf hp hd hn (by omega) hs
      rw [mrRounds] at h
      split at h
      · next hv =>
        obtain ⟨rfl, rfl⟩ : .witnessRange = o ∧ f.round + 1 = k := by simpa using h
        refine ⟨1, by simp, rfl, ?_⟩
        rw [hs]
        exact (hround 0 _ (exec_mrtest_answer_out_of_range rfl rfl rfl iters hv)).trans
          (congrArg _ (State.withOutcome_of_answered .witnessRange hr))
      · next hv =>
        split at h
        · next hpass =>
          obtain ⟨m, hm, rfl, hrun⟩ := ih (f := { f with round := f.round + 1, pending := none })
            (s := { s with script := drawEvents draws, rngReply := none, inflight := _ }) rfl rfl hd hn
            ((Nat.succ_add_eq_add_succ _ _).trans hi) rfl rfl h
          refine ⟨m + 1, Nat.succ_le_succ hm, Nat.succ_add_eq_add_succ _ _, ?_⟩
          rw [show 2 * (m + 1) + o.closingTurns = 2 * m + o.closingTurns + 2 by omega, hs,
            hround _ _ (exec_mrtest_round_passes rfl rfl rfl iters (not_le.mp hv) hpass), hrun,
            State.withOutcome_of_answered o hr]
          rfl
        · next hfail =>
          obtain ⟨rfl, rfl⟩ : .composite = o ∧ f.round + 1 = k := by simpa using h
          refine ⟨1, by simp, rfl, ?_⟩
          rw [hs]
          exact (hround 0 _
            (exec_mrtest_round_fails rfl rfl rfl iters (not_le.mp hv) (eq_false_of_ne_true hfail))).trans
            (congrArg _ (State.withOutcome_of_answered .composite hr))

/-- Complete-early is the whole run of an MRTEST of `n < 4` (R155, R156). -/
theorem runSteps_mrtest_small (hf : s.inflight = some f) (hp : f.pending = none) (h0 : f.round = 0)
    (hd : decode f.word = .ok (.mrtest rm iters)) (hn : s.x rm < 4) (hs : s.script = drawEvents draws) :
    runSteps 1 s = .next { verdictState s (s.x rm = 2 ∨ s.x rm = 3) with script := s.script.drop 1 } :=
  (runSteps_one s).trans ((step_drawEvents hf hd hs).trans (exec_mrtest_complete_early
    (s := { s with script := s.script.drop 1 }) hf iters hp h0 hn))

end Sys2Proof.Machine
end

section
/-! PROOFS. The steps of an MRTEST compute its outcome (O36), which is prime for a prime (O39). -/

namespace Sys2Proof.Machine

/-- Settles O36: below 4 the run is complete-early; from 4 on it goes round by round, as the outcome's recursion does. -/
theorem mrtestStepsComputeOutcome : Obligations.MrtestStepsComputeOutcome := by
  intro s w rm iters draws o k hf hd hr hs h
  rcases lt_or_ge (s.x rm) 4 with h4 | h4
  · have hrun := runSteps_mrtest_small hf rfl rfl hd h4 hs
    rcases lt_or_ge (s.x rm) 2 with h2 | h2
    · rw [mrTestOutcome_of_lt_two iters draws h2] at h
      obtain ⟨rfl, rfl⟩ : .composite = o ∧ 0 = k := by simpa using h
      rw [decide_eq_false (by omega)] at hrun
      exact ⟨Nat.zero_le _, fun _ hle => absurd h4 hle.not_gt, fun _ _ => hrun, nofun, nofun⟩
    · rw [mrTestOutcome_of_lt_four iters draws h2 h4] at h
      obtain ⟨rfl, rfl⟩ : .prime = o ∧ 0 = k := by simpa using h
      rw [decide_eq_true (by omega)] at hrun
      exact ⟨Nat.zero_le _, nofun, nofun, fun _ => hrun, nofun⟩
  · rw [mrTestOutcome_of_four_le iters draws h4] at h
    obtain ⟨m, hm, rfl, hrun⟩ := runSteps_mrRounds iters hf rfl hd h4 (Nat.zero_add _) hr hs h
    rw [Nat.zero_add]
    refine ⟨hm, ?_, fun _ hlt => absurd hlt h4.not_gt, ?_, ?_⟩
    · rintro rfl -
      exact hrun
    · rintro rfl
      exact hrun
    · rintro rfl
      exact hrun

/-- Settles O39: a prime passes every round, so no round ends the test. -/
theorem compositeVerdictIsNeverWrong : Obligations.CompositeVerdictIsNeverWrong := by
  intro n iters draws o k hn h5 hdraws h
  rw [mrTestOutcome_of_four_le iters draws (by omega)] at h
  rw [← Nat.zero_add iters]
  exact mrRounds_of_prime hn hdraws h

end Sys2Proof.Machine
end

section
/-! SUPPORT. The codes of R173's table, and how a command comes to set ERR (R175). -/

namespace Sys2Proof.Machine

variable {i : Instr} {s t : State} {e : CmdError}

/-- No row of R173's table has IllegalCommand, the one error that is no command's own (R172). -/
theorem ne_illegalCommand_of_mem_errorsOf (h : e ∈ errorsOf i) : e ≠ .illegalCommand := by
  rintro rfl
  cases i <;> simp [errorsOf] at h

/-- Every code but IllegalCommand's lies above 0x01 (R171). -/
theorem CmdError.two_le_code (h : e ≠ .illegalCommand) : 0x02 ≤ e.code.toNat := by
  cases e with
  | illegalCommand => exact absurd rfl h
  | _ => decide

/-- An engine step sets ERR only by raising an error of its command's own row; an MRTEST that raises has consumed its
answer before. -/
theorem ExecEffect.raised_of_err_set (h : ExecEffect i s t) (hs : s.status.err = false) (ht : t.status.err = true) :
    ∃ e ∈ errorsOf i, t = { s.raise e with rngReply := t.rngReply } := by
  cases h with
  | raise e he hp => exact ⟨e, he, rfl⟩
  | answer rm iters v b hi hp hv =>
    rcases answerRound_cases s (s.x rm) v with ⟨-, ha⟩ | ⟨-, -, ha⟩ | ⟨-, -, ha⟩
    · exact ⟨.witnessRange, by simp [hi, errorsOf], by rw [ha]; rfl⟩
    · simp [ha, hs] at ht
    · simp [ha, hs] at ht
  | _ => simp [hs] at ht

end Sys2Proof.Machine
end

section
/-! PROOFS. The errors a command can end with (O46). -/

namespace Sys2Proof.Machine

/-- Settles O46: the step that set ERR raised an error of the command's row, and no row has a code outside the range. -/
theorem errorsOfEachCommand : Obligations.ErrorsOfEachCommand := by
  intro i s t h hs ht
  obtain ⟨e, he, hraise⟩ := (ExecEffect.of_exec h).raised_of_err_set hs ht
  exact ⟨e, he, CmdError.two_le_code (ne_illegalCommand_of_mem_errorsOf he), e.code_listed.2, hraise⟩

end Sys2Proof.Machine
end

section
/-! SUPPORT. An MRTEST with a draw for each of its rounds has an outcome, and an idle unit discards the two events that
only a command in flight can use. -/

namespace Sys2Proof.Machine

/-- With a draw for each round still to run, the rounds come to an outcome, after at most that many transactions. -/
theorem mrRounds_of_enough_draws (n made : Nat) {left : Nat} {draws : List Nat} (h : left ≤ draws.length) :
    ∃ o, ∃ m ≤ left, mrRounds n left made draws = some (o, made + m) := by
  induction left generalizing made draws with
  | zero => exact ⟨.prime, 0, le_rfl, rfl⟩
  | succ left ih =>
    cases draws with
    | nil => simp at h
    | cons v draws =>
      rw [mrRounds]
      split_ifs
      · exact ⟨.witnessRange, 1, by omega, rfl⟩
      · obtain ⟨o, m, hm, ho⟩ := ih (made + 1) (Nat.le_of_succ_le_succ h)
        exact ⟨o, m + 1, by omega, by rw [ho, Nat.add_right_comm, Nat.add_assoc]⟩
      · exact ⟨.composite, 1, by omega, rfl⟩

theorem MrOutcome.closingTurns_le_one (o : MrOutcome) : o.closingTurns ≤ 1 := by cases o <;> decide

/-- Every outcome ends the command and leaves the operand registers (R36, R175). -/
theorem State.withOutcome_ended (s : State) (o : MrOutcome) :
    (s.withOutcome o).inflight = none ∧ (s.withOutcome o).status.busy = false ∧
      (s.withOutcome o).status.done = true ∧ ∀ r, (s.withOutcome o).x r = s.x r := by
  cases o <;> exact ⟨rfl, rfl, rfl, fun _ => rfl⟩

variable {s : State} {rest : List Event}

/-- An answer that no command in flight can be waiting for is discarded (R192; log entry 10). -/
theorem step_rngAnswer_of_idle {v : Nat} (hi : s.inflight = none) (h : s.script = .rngAnswer v :: rest) :
    step s = .next { s with script := rest } :=
  (step_cons h).trans (rngTurn_unasked v (State.pending_of_idle hi))

/-- The engine of an idle unit has no step (R36, R187; log entry 6). -/
theorem step_engine_of_idle (hi : s.inflight = none) (h : s.script = .engine :: rest) :
    step s = .next { s with script := rest } :=
  (step_cons h).trans (engineTurn_idle hi)

end Sys2Proof.Machine
end

section
/-! PROOFS. An answered MRTEST ends (O37), and an answer that comes after a soft reset is discarded (O10). -/

namespace Sys2Proof.Machine

/-- Settles O37: below 4 complete-early is the whole run; from 4 on the draws bring the rounds to an outcome, and the
run ends with that outcome. -/
theorem answeredMrtestEnds : Obligations.AnsweredMrtestEnds := by
  intro s w rm iters draws hf hd hr hs hlen
  rcases lt_or_ge (s.x rm) 4 with h4 | h4
  · exact ⟨1, _, Nat.le_add_left _ _, runSteps_mrtest_small hf rfl rfl hd h4 hs, rfl, rfl, rfl, fun _ => rfl⟩
  · obtain ⟨o, k, hk, ho⟩ := mrRounds_of_enough_draws (s.x rm) 0 hlen
    obtain ⟨m, -, hkm, hrun⟩ := runSteps_mrRounds iters hf rfl hd h4 (Nat.zero_add _) hr hs ho
    have hturns : 2 * m + o.closingTurns ≤ 2 * iters + 1 := by
      have := o.closingTurns_le_one
      omega
    exact ⟨_, _, hturns, hrun, s.withOutcome_ended o⟩

/-- Settles O10: the soft reset leaves nothing in flight, and without a command in flight neither event has an effect. -/
theorem lateAnswerIsDiscarded : Obligations.LateAnswerIsDiscarded := by
  intro s t d v rest hd hs h
  obtain ⟨hreset, -, -⟩ := ctrlWriteIsSoftReset s (.rngAnswer v :: .engine :: rest)
  cases (hreset d hs hd).symm.trans h
  rw [runSteps_succ 1 (step_rngAnswer_of_idle rfl rfl), runSteps_one]
  exact step_engine_of_idle rfl rfl

end Sys2Proof.Machine
end
